-- ==== Sys2Proof/Word.lean ====
section
/-! DEFINITION. The plain value types of the block: levels, bytes, texts, and the names of physical lines (spec/00_scope.md
R10, R11, R14; spec/10_state.md R21, R22).  A character code, a word of the request port (R75; notes/assumptions/2.md)
and a duration in microseconds (notes/assumptions/6.md) are plain `Nat`s. -/

namespace Sys2Proof

/-- A frame's byte: 8 bits, bit 0 least significant (R10). -/
abbrev Byte := BitVec 8

/-- A driven signal level: `false` is 0, `true` is 1 (R21: "boolean output level"). -/
abbrev Level := Bool

/-- A text operand: a finite list of character codes, each a natural number (R11, R72). -/
abbrev Text := List Nat

/-- An opaque board identifier, compared only by PIN_TABLE (R72). -/
abbrev BoardKind := Nat

/-- An opaque socket identifier, compared only by PIN_TABLE (R72). -/
abbrev SocketId := Nat

/-- A physical signal handle: it says which line a level appears on, and nothing computes with it (R22). -/
abbrev Handle := Nat

/-- The seven physical handles of a pin set, in the source's order RS, D4, D5, D6, D7, E, BACKLIGHT (R14, R22). -/
structure Pins where
  rs : Handle
  d4 : Handle
  d5 : Handle
  d6 : Handle
  d7 : Handle
  e  : Handle
  bl : Handle
  deriving DecidableEq, Repr

/-- The handles of a pin set as a list, in the source's order (R22). -/
def Pins.toList (p : Pins) : List Handle := [p.rs, p.d4, p.d5, p.d6, p.d7, p.e, p.bl]

/-- Four levels, bit 3 first: what `nibbleHigh` and `nibbleLow` return (R121, R122). -/
structure Nibble where
  b3 : Level
  b2 : Level
  b1 : Level
  b0 : Level
  deriving DecidableEq, Repr

/-- The value 0..15 of a nibble (R10). -/
def Nibble.value (n : Nibble) : Nat :=
  8 * n.b3.toNat + 4 * n.b2.toNat + 2 * n.b1.toNat + n.b0.toNat

end Sys2Proof
end

