-- ==== Sys2Proof/Config.lean ====
section
/-! DEFINITION. The parameters of spec/00_scope.md R8, R9 and R14: the fixed durations, the configuration of a run
(PIN_TABLE, ERROR_POLICY, ACCEPT_SHORT_ROWS, T_SETTLE_AFTER and the three minima of D19), and the free values (the dwell and gap draws). -/

namespace Sys2Proof

/-- ERROR_POLICY (R14): an error is a status only, or also ends the run. -/
inductive ErrorPolicy where
  /-- An error is a status returned to the host (R212). -/
  | report
  /-- An error also ends the run in HALTED (R213). -/
  | halt
  deriving DecidableEq, Repr

/-- The configuration of a run, fixed for the run (R9, R14; notes/assumptions/4.md).  It is plain data:
PIN_TABLE and T_SETTLE_AFTER are association lists, read by `resolveBoard`, `resolveSocket` and `settleTime`
of Machine/Operands.lean. -/
structure Config where
  /-- PIN_TABLE: for each known board kind, its sockets that have a pin set (R14, D29). -/
  pinTable        : List (BoardKind × List (SocketId × Pins))
  /-- ERROR_POLICY (R14, D4). -/
  errorPolicy     : ErrorPolicy
  /-- ACCEPT_SHORT_ROWS (R9, D16). -/
  acceptShortRows : Bool
  /-- T_SETTLE_AFTER: the frames with a wait after them; a frame not listed waits 0 (R9, D20). -/
  settleAfter     : List ((Level × Byte) × Nat)
  /-- T_SETUP_MIN: the least time from a LEVELS event to the next E_RISE (R9, R105, D19). -/
  tSetupMin       : Nat
  /-- T_HOLD_MIN: the least time from an E_FALL to the next LEVELS event (R9, R105, D19). -/
  tHoldMin        : Nat
  /-- T_E_LOW_MIN: the least E-low time between two pulses (R9, R105, D19). -/
  tELowMin        : Nat
  deriving DecidableEq, Repr

/-- The configuration of `State.reset`: R9's defaults, and for PIN_TABLE, which has no default, the shape of the
spec's own test configuration (spec/95_test_vectors.md, "Unless a vector says otherwise"): one board 0 whose
socket 0 has seven distinct lines, any other socket of it none, any other board none.
DESIGN CHOICE, notes/assumptions/5.md. -/
def Config.reference : Config where
  pinTable := [(0, [(0, { rs := 0, d4 := 1, d5 := 2, d6 := 3, d7 := 4, e := 5, bl := 6 })])]
  errorPolicy := .report
  acceptShortRows := false
  settleAfter := []
  tSetupMin := 0
  tHoldMin := 0
  tELowMin := 0

/-- T_E_MIN: the minimum enable-high dwell, 1 ms (R8). -/
def Config.tEMin : Nat := 1000

/-- T_POWER_SETTLE: 40 ms, a host duty the block neither waits nor checks (R8, R246). -/
def Config.tPowerSettle : Nat := 40000

/-- FREE VALUE (notes/assumptions/7.md): by how much the n-th LATCH of a run dwells longer than T_E_MIN, for each source
of draws; each block of several has a source of its own (R68).  R104: "a fresh draw t with t >= T_E_MIN = 1 ms and no
upper bound". -/
opaque Config.dwellExcess : (source : Nat) → (n : Nat) → Nat

/-- FREE VALUE (notes/assumptions/8.md): T_GAP before the n-th event of the trace, for each source of draws.  R105: "a
draw with no bound either way". -/
opaque Config.gap : (source : Nat) → (n : Nat) → Nat

end Sys2Proof
end

