-- ==== Sys2Proof/Syntax.lean ====
section
/-! DEFINITION. The instructions: the eleven requests of the request port and the four micro-operations of the
sequencer, one constructor per row of spec/opcode_table.json (spec/00_scope.md R3, spec/30_encoding.md R72, R80). -/

namespace Sys2Proof

/-- An instruction: a request the host issues (R72), or a micro-operation the sequencer performs (R80). -/
inductive Instr where
  /-- INIT board, socket, bl (R153). -/
  | init (board : BoardKind) (socket : SocketId) (bl : Level)
  /-- SEND_CMD b (R156). -/
  | sendCmd (b : Byte)
  /-- SEND_DATA b (R157). -/
  | sendData (b : Byte)
  /-- SEND_ENC text (R158). -/
  | sendEnc (text : Text)
  /-- SEND_RAW bits (R159). -/
  | sendRaw (bits : Text)
  /-- CLEAR (R160). -/
  | clear
  /-- SET_CURSOR column, row (R180). -/
  | setCursor (column row : Int)
  /-- WRITE_CHAR code (R182). -/
  | writeChar (code : Nat)
  /-- WRITE_STRING text (R183). -/
  | writeString (text : Text)
  /-- DEFINE_GLYPH slot, rows (R184). -/
  | defineGlyph (slot : Int) (rows : List Text)
  /-- DRAW_GLYPH slot (R185). -/
  | drawGlyph (slot : Int)
  /-- SET_LEVELS, a micro-operation: RS, then D7..D4 (R101). -/
  | setLevels (rs d7 d6 d5 d4 : Level)
  /-- LATCH, a micro-operation (R102). -/
  | latch
  /-- SETTLE, a micro-operation, with the frame that placed it (R109; notes/assumptions/12.md). -/
  | settle (rs : Level) (b : Byte)
  /-- BIND, a micro-operation, with the pin set PIN_TABLE returned (R103; notes/assumptions/12.md). -/
  | bind (bl : Level) (p : Pins)
  deriving DecidableEq, Repr

/-- Which instructions come on the request port (R3, R72); the others are micro-operations, which "cannot be
issued on the request port" (R80). -/
def Instr.isRequest : Instr → Bool
  | .init _ _ _ => true
  | .sendCmd _ => true
  | .sendData _ => true
  | .sendEnc _ => true
  | .sendRaw _ => true
  | .clear => true
  | .setCursor _ _ => true
  | .writeChar _ => true
  | .writeString _ => true
  | .defineGlyph _ _ => true
  | .drawGlyph _ => true
  | .setLevels _ _ _ _ _ => false
  | .latch => false
  | .settle _ _ => false
  | .bind _ _ => false

/-- Whether a request is INIT: the only one the phase UNINIT admits (R227). -/
def Instr.isInit : Instr → Bool
  | .init _ _ _ => true
  | .sendCmd _ => false
  | .sendData _ => false
  | .sendEnc _ => false
  | .sendRaw _ => false
  | .clear => false
  | .setCursor _ _ => false
  | .writeChar _ => false
  | .writeString _ => false
  | .defineGlyph _ _ => false
  | .drawGlyph _ => false
  | .setLevels _ _ _ _ _ => false
  | .latch => false
  | .settle _ _ => false
  | .bind _ _ => false

/-- The name of the instruction's row in spec/opcode_table.json (R72, R80). -/
def Instr.mnemonic : Instr → String
  | .init _ _ _ => "INIT"
  | .sendCmd _ => "SEND_CMD"
  | .sendData _ => "SEND_DATA"
  | .sendEnc _ => "SEND_ENC"
  | .sendRaw _ => "SEND_RAW"
  | .clear => "CLEAR"
  | .setCursor _ _ => "SET_CURSOR"
  | .writeChar _ => "WRITE_CHAR"
  | .writeString _ => "WRITE_STRING"
  | .defineGlyph _ _ => "DEFINE_GLYPH"
  | .drawGlyph _ => "DRAW_GLYPH"
  | .setLevels _ _ _ _ _ => "SET_LEVELS"
  | .latch => "LATCH"
  | .settle _ _ => "SETTLE"
  | .bind _ _ => "BIND"

/-- A text in quotes, as R78 writes it.  DESIGN CHOICE, notes/assumptions/24.md: R78 gives no escape, so a double quote or a
code that is no printable ASCII character stands between the quotes unescaped, as `Char.ofNat` of the code, which is NUL
for a code that is no Unicode scalar value. -/
def quoted (text : Text) : String := "\"" ++ String.ofList (text.map Char.ofNat) ++ "\""

/-- A request in the assembler syntax of R78: the mnemonic, then its operands, comma-separated.  A micro-operation has no
operands there and is its mnemonic alone. -/
def Instr.assembly (i : Instr) : String :=
  let operands : List String := match i with
    | .init board socket bl => [toString board, toString socket, toString bl.toNat]
    | .sendCmd b => [toString b.toNat]
    | .sendData b => [toString b.toNat]
    | .sendEnc text => [quoted text]
    | .sendRaw bits => [quoted bits]
    | .clear => []
    | .setCursor column row => [toString column, toString row]
    | .writeChar code => [toString code]
    | .writeString text => [quoted text]
    | .defineGlyph slot rows => [toString slot, "[" ++ ", ".intercalate (rows.map quoted) ++ "]"]
    | .drawGlyph slot => [toString slot]
    | .setLevels _ _ _ _ _ => []
    | .latch => []
    | .settle _ _ => []
    | .bind _ _ => []
  if operands.isEmpty then i.mnemonic else i.mnemonic ++ " " ++ ", ".intercalate operands

end Sys2Proof
end

