-- ==== Sys2Proof/WellFormed.lean ====
section
/-! DEFINITION. Well-formedness of an instruction and of a configuration.  The operand types already carry the widths of
spec/30_encoding.md R72 and R75, and an operand whose legal range is narrower than its type is no ill-formed
request (the request's rule answers it with an error); what remains is spec/00_scope.md R14: a pin set is
seven DISTINCT handles. -/

namespace Sys2Proof

/-- R14: "an ordered 7-tuple of distinct physical signal handles". -/
def Pins.distinct (p : Pins) : Bool := decide p.toList.Nodup

/-- An instruction is well-formed when the pin set it carries, if any, is one PIN_TABLE could return (R14, R103). -/
def WellFormed : Instr → Bool
  | .init _ _ _ => true
  | .sendCmd _ => true
  | .sendData _ => true
  | .sendEnc _ => true
  | .sendRaw _ => true
  | .clear => true
  | .setCursor _ _ => true
  | .writeChar _ => true
  | .writeString _ => true
  | .defineGlyph _ _ => true
  | .drawGlyph _ => true
  | .setLevels _ _ _ _ _ => true
  | .latch => true
  | .settle _ _ => true
  | .bind _ p => p.distinct

/-- A configuration is well-formed when every pin set of its PIN_TABLE has distinct handles (R14). -/
def Config.wellFormed (c : Config) : Bool :=
  c.pinTable.all fun board => board.2.all fun socket => socket.2.distinct

end Sys2Proof
end

