-- ==== Sys2Proof/Decode.lean ====
section
/-! DEFINITION. Decoding and encoding.  A request is `{ op : 4 bits, operands }` (spec/30_encoding.md R70, R72, R73); a
micro-operation is a 6-bit word (R80).  The source and the spec give no bits to the operands of a request:
their layout as port words is the model's (notes/assumptions/2.md), and so are the operand words that follow
the 6-bit word of SETTLE and BIND (notes/assumptions/12.md). -/

namespace Sys2Proof

/-- The two formats of the opcode table: what comes on the request port, and what the sequencer holds. -/
inductive Format where
  | request
  | micro
  deriving DecidableEq, Repr

/-- Why words spell no instruction. -/
inductive DecodeError where
  /-- A request opcode 0x0 or 0xC..0xF: it "spells no request" (R73). -/
  | reservedOpcode
  /-- A micro-operation word with bit 5 set that is none of LATCH, SETTLE, BIND (R80). -/
  | reservedMicro
  /-- A first word wider than its field: an opcode is 4 bits (R70), a micro-operation word 6 (R80). -/
  | wideOpcode
  /-- An operand word wider than its field: `b` is 8 bits and `bl` one (R75); "a wider value cannot be spelled" (D34). -/
  | wideOperand
  /-- The words end before the instruction does. -/
  | truncated
  deriving DecidableEq, Repr

/-! ### Operand words -/

/-- A natural-number operand: one word. -/
def takeWord : List Nat → Except DecodeError (Nat × List Nat)
  | [] => .error .truncated
  | w :: ws => .ok (w, ws)

/-- An 8-bit operand: one word below 256 (R75). -/
def takeByte : List Nat → Except DecodeError (Byte × List Nat)
  | [] => .error .truncated
  | w :: ws => if w < 256 then .ok (BitVec.ofNat 8 w, ws) else .error .wideOperand

/-- A 1-bit operand: one word, 0 or 1 (R75). -/
def takeLevel : List Nat → Except DecodeError (Level × List Nat)
  | [] => .error .truncated
  | w :: ws => if w = 0 then .ok (false, ws) else if w = 1 then .ok (true, ws) else .error .wideOperand

/-- The integer a word stands for: even words are 0, 1, 2, ..., odd words -1, -2, -3, ... -/
def intOfWord (w : Nat) : Int :=
  if w % 2 = 0 then Int.ofNat (w / 2) else Int.negSucc (w / 2)

/-- A signed integer of unbounded range: one word (R75). -/
def takeInt : List Nat → Except DecodeError (Int × List Nat)
  | [] => .error .truncated
  | w :: ws => .ok (intOfWord w, ws)

/-- The first `n` words. -/
def takeWords : Nat → List Nat → Except DecodeError (Text × List Nat)
  | 0, ws => .ok ([], ws)
  | _ + 1, [] => .error .truncated
  | n + 1, w :: ws =>
    match takeWords n ws with
    | .error e => .error e
    | .ok (text, rest) => .ok (w :: text, rest)

/-- A text: its length, then its character codes (R77: "The length of each list is part of the operand"). -/
def takeText : List Nat → Except DecodeError (Text × List Nat)
  | [] => .error .truncated
  | n :: ws => takeWords n ws

/-- `n` texts. -/
def takeTexts : Nat → List Nat → Except DecodeError (List Text × List Nat)
  | 0, ws => .ok ([], ws)
  | n + 1, ws =>
    match takeText ws with
    | .error e => .error e
    | .ok (text, ws') =>
      match takeTexts n ws' with
      | .error e => .error e
      | .ok (texts, rest) => .ok (text :: texts, rest)

/-- A list of texts: its length, then the texts (R77). -/
def takeRows : List Nat → Except DecodeError (List Text × List Nat)
  | [] => .error .truncated
  | n :: ws => takeTexts n ws

/-- A pin set: seven handles in R22's order. -/
def takePins : List Nat → Except DecodeError (Pins × List Nat)
  | rs :: d4 :: d5 :: d6 :: d7 :: e :: bl :: ws => .ok (⟨rs, d4, d5, d6, d7, e, bl⟩, ws)
  | _ => .error .truncated

/-! ### Decoders -/

/-- The operands of a request by its opcode (R72, R73). -/
def takeOperands (op : Nat) (ws : List Nat) : Except DecodeError (Instr × List Nat) :=
  match op with
  | 0x1 => do
    let (board, ws) ← takeWord ws
    let (socket, ws) ← takeWord ws
    let (bl, ws) ← takeLevel ws
    .ok (.init board socket bl, ws)
  | 0x2 => do
    let (b, ws) ← takeByte ws
    .ok (.sendCmd b, ws)
  | 0x3 => do
    let (b, ws) ← takeByte ws
    .ok (.sendData b, ws)
  | 0x4 => do
    let (text, ws) ← takeText ws
    .ok (.sendEnc text, ws)
  | 0x5 => do
    let (bits, ws) ← takeText ws
    .ok (.sendRaw bits, ws)
  | 0x6 => .ok (.clear, ws)
  | 0x7 => do
    let (column, ws) ← takeInt ws
    let (row, ws) ← takeInt ws
    .ok (.setCursor column row, ws)
  | 0x8 => do
    let (code, ws) ← takeWord ws
    .ok (.writeChar code, ws)
  | 0x9 => do
    let (text, ws) ← takeText ws
    .ok (.writeString text, ws)
  | 0xA => do
    let (slot, ws) ← takeInt ws
    let (rows, ws) ← takeRows ws
    .ok (.defineGlyph slot rows, ws)
  | 0xB => do
    let (slot, ws) ← takeInt ws
    .ok (.drawGlyph slot, ws)
  | _ => .error (if op < 16 then .reservedOpcode else .wideOpcode)

/-- The request at the front of the port's words, and the words after it (R70, R77). -/
def decodeRequest : List Nat → Except DecodeError (Instr × List Nat)
  | [] => .error .truncated
  | op :: ws => takeOperands op ws

/-- The micro-operation of a 6-bit word (R80), with its operand words (notes/assumptions/12.md). -/
def decodeMicro : List Nat → Except DecodeError (Instr × List Nat)
  | [] => .error .truncated
  | w :: ws =>
    if w < 0x20 then
      .ok (.setLevels (w.testBit 4) (w.testBit 3) (w.testBit 2) (w.testBit 1) (w.testBit 0), ws)
    else if w = 0x20 then .ok (.latch, ws)
    else if w = 0x30 then do
      let (rs, ws) ← takeLevel ws
      let (b, ws) ← takeByte ws
      .ok (.settle rs b, ws)
    else if w = 0x38 ∨ w = 0x39 then do
      let (p, ws) ← takePins ws
      .ok (.bind (w.testBit 0) p, ws)
    else .error (if w < 0x40 then .reservedMicro else .wideOpcode)

/-- Decode words of either format. -/
def decode (fmt : Format) (ws : List Nat) : Except DecodeError (Instr × List Nat) :=
  match fmt with
  | .request => decodeRequest ws
  | .micro => decodeMicro ws

/-! ### Encoder -/

/-- The word of an integer, the inverse of `intOfWord`. -/
def wordOfInt : Int → Nat
  | .ofNat n => 2 * n
  | .negSucc n => 2 * n + 1

/-- The words of a text: its length, then its character codes. -/
def encodeText (text : Text) : List Nat := text.length :: text

/-- The words of a list of texts: its length, then the texts. -/
def encodeRows (rows : List Text) : List Nat := rows.length :: rows.flatMap encodeText

/-- The words of an instruction: the opcode of R72 or the 6-bit word of R80, then the operand words. -/
def encode : Instr → List Nat
  | .init board socket bl => [0x1, board, socket, bl.toNat]
  | .sendCmd b => [0x2, b.toNat]
  | .sendData b => [0x3, b.toNat]
  | .sendEnc text => 0x4 :: encodeText text
  | .sendRaw bits => 0x5 :: encodeText bits
  | .clear => [0x6]
  | .setCursor column row => [0x7, wordOfInt column, wordOfInt row]
  | .writeChar code => [0x8, code]
  | .writeString text => 0x9 :: encodeText text
  | .defineGlyph slot rows => 0xA :: wordOfInt slot :: encodeRows rows
  | .drawGlyph slot => [0xB, wordOfInt slot]
  | .setLevels rs d7 d6 d5 d4 =>
    [16 * rs.toNat + 8 * d7.toNat + 4 * d6.toNat + 2 * d5.toNat + d4.toNat]
  | .latch => [0x20]
  | .settle rs b => [0x30, rs.toNat, b.toNat]
  | .bind bl p => (0x38 + bl.toNat) :: p.toList

/-- The format of an instruction's row in the opcode table. -/
def Instr.format (i : Instr) : Format := if i.isRequest then .request else .micro

/-! ### The host's view of one opcode-table word -/

/-- The operand words of a table word: all 0, as many as the longest instruction with zero operands has. -/
def zeroOperands : List Nat := List.replicate 8 0

/-- The instruction of one word numbered as spec/opcode_table.json numbers it, its operand words 0.  The table's two
formats share small words (0x1 is INIT's opcode and also SET_LEVELS with D4 high): a word of at most 4 bits is a
request, of exactly 6 a micro-operation, and any other is the first row of the table that matches it, so a
request wherever its opcode is 0x1..0xB (notes/assumptions/14.md). -/
def decodeTableWord (nbits w : Nat) : Option Instr :=
  let v := w % 2 ^ nbits
  let fmt : Format :=
    if nbits ≤ 4 then .request
    else if nbits = 6 then .micro
    else if 1 ≤ v ∧ v ≤ 0xB then .request else .micro
  match decode fmt (v :: zeroOperands) with
  | .ok (i, _) => some i
  | .error _ => none

end Sys2Proof
end

