-- ==== Sys2Proof/Machine/State.lean ====
section
/-! DEFINITION. The state record of spec/10_state.md R20, with its reset values (R39), and the four fields the model adds:
the configuration of the run, the host's requests still to come, and the place and the source of the dwell draws. -/

namespace Sys2Proof.Machine

/-- The six error kinds (spec/60_exceptions.md R210). -/
inductive ErrorKind where
  /-- "unknown board/controller identifier": INIT (R153). -/
  | unsupportedBoard
  /-- "socket has no compatible pin set": INIT (R153). -/
  | invalidSocket
  /-- "column/row out of physical range": SET_CURSOR (R180). -/
  | invalidCursor
  /-- "raw bit string not exactly 9 binary characters": SEND_RAW (R159). -/
  | invalidFrame
  /-- "malformed hex-pair/routing text", row patterns and counts, codes above 0xFF (R158, R182, R183, R184). -/
  | invalidEncoding
  /-- "CGRAM slot outside [1,8]": DEFINE_GLYPH, DRAW_GLYPH (R184, R185). -/
  | invalidSlot
  deriving DecidableEq, Repr

/-- The status of a request that ended (R28, R76). -/
inductive Status where
  | ok
  | err (k : ErrorKind)
  deriving DecidableEq, Repr

/-- The fault kinds of spec/60_exceptions.md R218.  A request that faults records its kind in `run`, a next state; a step
of a block whose `run` is FAULTED answers the kind as the outcome `fault`, since R25 gives it "no further step".
Safe: no claim about a faulted run's later steps can be proved (R220; notes/assumptions/10.md). -/
inductive Fault where
  /-- Any request other than INIT while the phase is UNINIT (R219). Raised by every other request. Safe. -/
  | notReady
  /-- INIT while the phase is READY (R221). Raised by INIT. Safe. -/
  | alreadyInitialized
  /-- A request opcode that spells no request (R222). Raised by the step that meets it. Safe. -/
  | illegalRequest
  deriving DecidableEq, Repr

/-- Why a step or a meaning stops without a meaning the spec gives.  Each is safe: nothing runs on. -/
inductive Refusal where
  /-- An instruction whose arm of `exec` has no meaning yet. Raised by that arm alone. Safe. -/
  | notModelled (mnemonic : String)
  /-- The words on the request port are cut off inside a request: R72's record is not spelled by them.
  Raised by `step` (notes/assumptions/3.md). Safe. -/
  | truncatedRequest
  /-- A word of the request port is wider than its field: the 4-bit opcode, the 8-bit `b`, the 1-bit `bl` (R70, R75);
  "a wider value cannot be spelled" (D34). Raised by `step` (notes/assumptions/3.md). Safe. -/
  | wideRequestWord
  /-- A micro-operation that is not the head of `seq` of a BUSY block: it "runs only while run = BUSY, takes the head of
  seq" (R100) and "cannot be issued on the request port" (R80). Raised by `exec` of the four micro-operations;
  no step raises it (notes/assumptions/13.md). Safe. -/
  | microOpNotNext
  /-- Two blocks' pin sets share a physical line: "the model gives such a configuration no run" (R250).
  Raised by `System.stepBlock` (notes/assumptions/18.md). Safe. -/
  | sharedLine
  /-- A step is asked of a block the system does not have. Raised by `System.stepBlock`. Safe. -/
  | noSuchBlock
  deriving DecidableEq, Repr

/-- The seven output signals (R20, R21). -/
inductive Signal where
  | rs | d4 | d5 | d6 | d7 | e | bl
  deriving DecidableEq, Repr

/-- What a pin carries (R20, R21): UNBOUND (undriven, no value) until BIND, then a level. -/
inductive PinLevel where
  | unbound
  | level (v : Level)
  deriving DecidableEq, Repr

/-- `pin` of R20: one level per signal. -/
structure PinLevels where
  rs : PinLevel
  d4 : PinLevel
  d5 : PinLevel
  d6 : PinLevel
  d7 : PinLevel
  e  : PinLevel
  bl : PinLevel
  deriving DecidableEq, Repr

/-- Every pin UNBOUND (R39). -/
def PinLevels.undriven : PinLevels := ⟨.unbound, .unbound, .unbound, .unbound, .unbound, .unbound, .unbound⟩

/-- `phase` of R20 and R24. -/
inductive Phase where
  | uninit
  | ready
  deriving DecidableEq, Repr

/-- `run` of R20 and R25. -/
inductive RunState where
  /-- No request in flight. -/
  | idle
  /-- A request has been accepted and its micro-operations are being performed. -/
  | busy
  /-- A fault has been recorded: "sticky, no further step, never final". -/
  | faulted (f : Fault)
  /-- Under ERROR_POLICY = halt, a request ended with an error: final. -/
  | halted (k : ErrorKind)
  deriving DecidableEq, Repr

/-- A micro-operation as `seq` holds it (R26, R80): SETTLE with the frame that placed it, BIND with the pin set
PIN_TABLE returned (R103, R109; notes/assumptions/12.md). -/
inductive MicroOp where
  | setLevels (rs d7 d6 d5 d4 : Level)
  | latch
  | settle (rs : Level) (b : Byte)
  | bind (bl : Level) (p : Pins)
  deriving DecidableEq, Repr

/-- The pin events of R27. -/
inductive PinEvent where
  | bind (bl : Level)
  | levels (rs d7 d6 d5 d4 : Level)
  | eRise
  | hold (t : Nat)
  | eFall
  deriving DecidableEq, Repr

/-- The state of a block.  The first seven fields are R20's record; the last four are the model's own. -/
structure State where
  /-- The levels of the seven output signals (R21, R23). -/
  pin   : PinLevels
  /-- The physical handles bound by INIT, none before (R22). -/
  bound : Option Pins
  /-- UNINIT until an INIT completes with OK, then READY (R24). -/
  phase : Phase
  /-- IDLE, BUSY, FAULTED or HALTED (R25). -/
  run   : RunState
  /-- The micro-operations still to perform for the request in flight (R26). -/
  seq   : List MicroOp
  /-- Every pin event so far, oldest first (R27). -/
  trace : List PinEvent
  /-- Every status returned so far, oldest first (R28). -/
  resp  : List Status
  /-- MODEL'S OWN: the configuration, fixed for the run; no step changes it (R14; notes/assumptions/4.md). -/
  cfg   : Config
  /-- MODEL'S OWN: the words of the requests the host has still to issue, in its order (notes/assumptions/1.md). -/
  port  : List Nat
  /-- MODEL'S OWN: how many dwells have been drawn; the next LATCH reads and advances it (notes/assumptions/7.md). -/
  draws : Nat
  /-- MODEL'S OWN: which source of draws the block's LATCHes and gaps read, so that no two of several blocks share a draw;
  no step of a block changes it (R68; notes/assumptions/25.md). -/
  source : Nat
  deriving DecidableEq, Repr

/-- The reset state under a configuration: R39's values, no request from the host yet, no dwell drawn. -/
def State.resetWith (c : Config) : State where
  pin := PinLevels.undriven
  bound := none
  phase := .uninit
  run := .idle
  seq := []
  trace := []
  resp := []
  cfg := c
  port := []
  draws := 0
  source := 0

/-- The machine right after reset (R39, R240), under the configuration of notes/assumptions/5.md. -/
def State.reset : State := State.resetWith Config.reference

end Sys2Proof.Machine
end

