-- ==== Sys2Proof/Machine/Ops.lean ====
section
/-! DEFINITION. The shared operations: emitting a pin event, ending a request with an error, recording a fault, the request
cycle of spec/42_init_and_transfer.md R150, the frame of spec/30_encoding.md R81, and the fetch of a request. -/

namespace Sys2Proof.Machine

/-! ### Pins and events -/

/-- The level on one signal (R20). -/
def PinLevels.get (p : PinLevels) : Signal → PinLevel
  | .rs => p.rs
  | .d4 => p.d4
  | .d5 => p.d5
  | .d6 => p.d6
  | .d7 => p.d7
  | .e => p.e
  | .bl => p.bl

/-- The pins after an event: the column "pins changed" of R27's table. -/
def applyEvent (p : PinLevels) : PinEvent → PinLevels
  | .bind bl => ⟨.level false, .level false, .level false, .level false, .level false, .level false, .level bl⟩
  | .levels rs d7 d6 d5 d4 =>
    { p with rs := .level rs, d7 := .level d7, d6 := .level d6, d5 := .level d5, d4 := .level d4 }
  | .eRise => { p with e := .level true }
  | .hold _ => p
  | .eFall => { p with e := .level false }

/-- `emit(ev)` of R12: the event is appended to the trace, and the pins change with it: "Every change of a pin happens
through exactly one emitted event". -/
def emit (ev : PinEvent) (s : State) : State :=
  { s with pin := applyEvent s.pin ev, trace := s.trace ++ [ev] }

/-! ### Abnormal ends of a request: what this block has in place of taking an exception -/

/-- `raise Err(k)` (R150, R211, R212, R213): the status is appended, and under `halt` the run ends in HALTED(k);
pin, bound, phase and trace are unchanged.  This and `recordFault` are all the "exception entry" there is: no
state is saved and control goes nowhere (R224), and there is no return (R225). -/
def raiseError (k : ErrorKind) (s : State) : State :=
  { s with
    resp := s.resp ++ [.err k]
    run := match s.cfg.errorPolicy with
      | .report => .idle
      | .halt => .halted k }

/-- `fault F` (R12, R218): recorded in `run`; "it emits no pin event and appends no status". -/
def recordFault (f : Fault) (s : State) : State := { s with run := .faulted f }

/-! ### The request cycle -/

/-- R150's `seq <- plan(req, r); run <- BUSY`. -/
def loadPlan (ops : List MicroOp) (s : State) : State := { s with seq := ops, run := .busy }

/-- R150's end of a request whose micro-operations are all performed: OK is appended and the block is IDLE.  A request in
flight in phase UNINIT is an INIT, so READY is INIT's effect; any other request is in flight in READY
already (R24; notes/assumptions/11.md). -/
def complete (s : State) : State :=
  { s with phase := .ready, resp := s.resp ++ [.ok], run := .idle }

/-- R150's `accept(req)` for a request admitted in phase `wanted`, which faults with `wrongPhase` in the other, and whose
`validate` and `plan` give `planned`.  A request is accepted "only when `run = IDLE`" (R71): offered while BUSY
it waits, and offered to a HALTED block it is never accepted, so nothing changes; a FAULTED block has no
further step (R25; notes/assumptions/13.md). -/
def acceptRequest (wanted : Phase) (wrongPhase : Fault) (planned : Except ErrorKind (List MicroOp)) (s : State) :
    Host.Outcome State Fault Refusal :=
  match s.run with
  | .idle =>
    if s.phase = wanted then
      match planned with
      | .error k => .next (raiseError k s)
      | .ok ops => .next (loadPlan ops s)
    else .next (recordFault wrongPhase s)
  | .busy => .next s
  | .halted _ => .next s
  | .faulted f => .fault f

/-- INIT: admitted in UNINIT, AlreadyInitialized in READY (R150, R221). -/
def acceptInit (planned : Except ErrorKind (List MicroOp)) (s : State) : Host.Outcome State Fault Refusal :=
  acceptRequest .uninit .alreadyInitialized planned s

/-- Any other request: admitted in READY, NotReady in UNINIT (R150, R219). -/
def acceptReady (planned : Except ErrorKind (List MicroOp)) (s : State) : Host.Outcome State Fault Refusal :=
  acceptRequest .ready .notReady planned s

/-! ### Micro-operations -/

/-- R100: a micro-operation "runs only while `run = BUSY`, takes the head of `seq`, performs its pseudocode, and removes
itself from `seq`".  Anywhere else it has no run (notes/assumptions/13.md). -/
def performMicro (m : MicroOp) (effect : State → State) (s : State) : Host.Outcome State Fault Refusal :=
  if s.run = .busy ∧ s.seq.head? = some m then .next (effect { s with seq := s.seq.tail })
  else .refused .microOpNotNext

/-- The dwell of the n-th LATCH of a source of draws: T_E_MIN and the free excess (R102, R104; notes/assumptions/7.md). -/
def dwell (source n : Nat) : Nat := Config.tEMin + Config.dwellExcess source n

/-- T_SETTLE_AFTER(rs, b): 0 for a frame the configuration does not list (R9, R109). -/
def settleTime (c : Config) (rs : Level) (b : Byte) : Nat :=
  (c.settleAfter.lookup (rs, b)).getD 0

/-- FRAME(rs, b) of R81: the high nibble and a strobe, the low nibble and a strobe, and SETTLE only when
T_SETTLE_AFTER(rs, b) > 0. -/
def frame (c : Config) (rs : Level) (b : Byte) : List MicroOp :=
  [.setLevels rs (b.getLsbD 7) (b.getLsbD 6) (b.getLsbD 5) (b.getLsbD 4), .latch,
   .setLevels rs (b.getLsbD 3) (b.getLsbD 2) (b.getLsbD 1) (b.getLsbD 0), .latch]
  ++ if 0 < settleTime c rs b then [.settle rs b] else []

/-- Several frames back to back, in plan order (R152). -/
def frames (c : Config) (bytes : List (Level × Byte)) : List MicroOp :=
  bytes.flatMap fun f => frame c f.1 f.2

/-! ### Fetching -/

/-- The instruction a micro-operation of `seq` is. -/
def MicroOp.toInstr : MicroOp → Instr
  | .setLevels rs d7 d6 d5 d4 => .setLevels rs d7 d6 d5 d4
  | .latch => .latch
  | .settle rs b => .settle rs b
  | .bind bl p => .bind bl p

/-- The micro-operation an instruction is, if it is one. -/
def MicroOp.ofInstr : Instr → Option MicroOp
  | .setLevels rs d7 d6 d5 d4 => some (.setLevels rs d7 d6 d5 d4)
  | .latch => some .latch
  | .settle rs b => some (.settle rs b)
  | .bind bl p => some (.bind bl p)
  | .init _ _ _ => none
  | .sendCmd _ => none
  | .sendData _ => none
  | .sendEnc _ => none
  | .sendRaw _ => none
  | .clear => none
  | .setCursor _ _ => none
  | .writeChar _ => none
  | .writeString _ => none
  | .defineGlyph _ _ => none
  | .drawGlyph _ => none

/-- The host issues a request: its words follow those already waiting at the port (R65, R245 H-1, H-2). -/
def State.issue (i : Instr) (s : State) : State := { s with port := s.port ++ encode i }

/-- What an IDLE block finds at its port: nothing, a request and the words after it, or words that spell none. -/
inductive Fetched where
  | nothing
  | request (i : Instr) (rest : List Nat)
  | malformed (e : DecodeError)
  deriving DecidableEq, Repr

/-- Read the next request of the port (R70, R77). -/
def fetch (s : State) : Fetched :=
  match s.port with
  | [] => .nothing
  | w :: ws =>
    match decodeRequest (w :: ws) with
    | .ok (i, rest) => .request i rest
    | .error e => .malformed e

/-- An IDLE block meets words that spell no request.  A reserved opcode faults, before any other check (R74, R217, R222);
words no request of R72 is spelled by are refused (notes/assumptions/3.md). -/
def rejectRequest (e : DecodeError) (s : State) : Host.Outcome State Fault Refusal :=
  match e with
  | .reservedOpcode => .next (recordFault .illegalRequest s)
  | .wideOpcode => .refused .wideRequestWord
  | .wideOperand => .refused .wideRequestWord
  | .truncated => .refused .truncatedRequest
  | .reservedMicro => .refused .wideRequestWord

/-- Put an instruction where the step meets it next: a request in front of the port's words with the block IDLE, a
micro-operation in front of `seq` with the block BUSY (notes/assumptions/15.md). -/
def State.place (i : Instr) (s : State) : State :=
  match MicroOp.ofInstr i with
  | some m => { s with run := .busy, seq := m :: s.seq }
  | none => { s with run := .idle, seq := [], port := encode i ++ s.port }

end Sys2Proof.Machine
end

