-- ==== Sys2Proof/Machine/Operands.lean ====
section
/-! DEFINITION. The ProtocolCodec of spec/41_codec.md: pure functions of their arguments (R120), and the pin resolution of
spec/00_scope.md R14.  Quoted characters are their ASCII codes (R11; notes/assumptions/16.md). -/

namespace Sys2Proof.Machine

/-! ### Nibbles -/

/-- R121: the four levels of bits 7..4. -/
def nibbleHigh (b : Byte) : Nibble := ⟨b.getLsbD 7, b.getLsbD 6, b.getLsbD 5, b.getLsbD 4⟩

/-- R122: the four levels of bits 3..0. -/
def nibbleLow (b : Byte) : Nibble := ⟨b.getLsbD 3, b.getLsbD 2, b.getLsbD 1, b.getLsbD 0⟩

/-! ### Hex digits and routing text -/

/-- R123: '0'..'9', 'A'..'F' and 'a'..'f'. -/
def hexValue (c : Nat) : Except ErrorKind Nat :=
  if 0x30 ≤ c ∧ c ≤ 0x39 then .ok (c - 0x30)
  else if 0x41 ≤ c ∧ c ≤ 0x46 then .ok (c - 0x41 + 10)
  else if 0x61 ≤ c ∧ c ≤ 0x66 then .ok (c - 0x61 + 10)
  else .error .invalidEncoding

/-- R124: exactly two hex digits, the first the high nibble (R56). -/
def decodeHexPair (text : Text) : Except ErrorKind Byte :=
  match text with
  | [c0, c1] => do
    let hi ← hexValue c0
    let lo ← hexValue c1
    .ok (BitVec.ofNat 8 (16 * hi + lo))
  | _ => .error .invalidEncoding

/-- R125: '0' is the command register, '1' the data register. -/
def decodeCommandRouting (c : Nat) : Except ErrorKind Level :=
  if c = 0x30 then .ok false
  else if c = 0x31 then .ok true
  else .error .invalidEncoding

/-- R126: exactly a routing digit, 'x', and a hex pair. -/
def decodeRoutingText (text : Text) : Except ErrorKind (Level × Byte) :=
  match text with
  | [c0, c1, c2, c3] => do
    let rs ← decodeCommandRouting c0
    if c1 = 0x78 then do
      let b ← decodeHexPair [c2, c3]
      .ok (rs, b)
    else .error .invalidEncoding
  | _ => .error .invalidEncoding

/-! ### Binary texts -/

/-- The value of a character that must be '0' or '1', or the given error. -/
def binDigit (k : ErrorKind) (c : Nat) : Except ErrorKind Nat :=
  if c = 0x30 then .ok 0
  else if c = 0x31 then .ok 1
  else .error k

/-- R127: nine characters '0'/'1': RS, the high nibble, the low nibble, each most significant first (R55). -/
def decodeRawFrame (bits : Text) : Except ErrorKind (Level × Nat × Nat) :=
  match bits with
  | [c0, c1, c2, c3, c4, c5, c6, c7, c8] => do
    let v0 ← binDigit .invalidFrame c0
    let v1 ← binDigit .invalidFrame c1
    let v2 ← binDigit .invalidFrame c2
    let v3 ← binDigit .invalidFrame c3
    let v4 ← binDigit .invalidFrame c4
    let v5 ← binDigit .invalidFrame c5
    let v6 ← binDigit .invalidFrame c6
    let v7 ← binDigit .invalidFrame c7
    let v8 ← binDigit .invalidFrame c8
    .ok (v0 == 1, 8 * v1 + 4 * v2 + 2 * v3 + v4, 8 * v5 + 4 * v6 + 2 * v7 + v8)
  | _ => .error .invalidFrame

/-- The sum of the characters' values, the first with the given weight and each next with half of it (R57, R129). -/
def patternSum : Nat → Text → Except ErrorKind Nat
  | _, [] => .ok 0
  | weight, c :: cs => do
    let v ← binDigit .invalidEncoding c
    let r ← patternSum (weight / 2) cs
    .ok (weight * v + r)

/-- R128 and, with `acceptShort` (ACCEPT_SHORT_ROWS), R129: the 5-bit row value, widened to a byte; characters after the
fifth are not read. -/
def binaryPatternToByte (acceptShort : Bool) (p : Text) : Except ErrorKind Byte :=
  if p.length < 5 ∧ acceptShort = false then .error .invalidEncoding
  else do
    let v ← patternSum 16 (p.take 5)
    .ok (BitVec.ofNat 8 v)

/-! ### Encoders -/

/-- The hex digit character of 0..15, upper case (R130). -/
def hexDigit (d : Nat) : Nat := if d < 10 then 0x30 + d else 0x41 + (d - 10)

/-- R130: two hex digits, defined for 0..255. -/
def hex2 (v : Nat) : Text := [hexDigit (v / 16), hexDigit (v % 16)]

/-- The binary digit character of a level. -/
def binChar (v : Bool) : Nat := if v then 0x31 else 0x30

/-- R130: seven binary digits, most significant first, defined for 0..127. -/
def bin7 (a : Nat) : Text :=
  [binChar (a.testBit 6), binChar (a.testBit 5), binChar (a.testBit 4), binChar (a.testBit 3),
   binChar (a.testBit 2), binChar (a.testBit 1), binChar (a.testBit 0)]

/-! ### Addresses and slots -/

/-- R131: the DDRAM address of a position: the column on row 0, 64 + column on row 1. -/
def cursorAddress (column row : Int) : Except ErrorKind Nat :=
  if ¬ (0 ≤ column ∧ column < 40) then .error .invalidCursor
  else if ¬ (0 ≤ row ∧ row ≤ 1) then .error .invalidCursor
  else .ok (if row = 0 then column.toNat else 64 + column.toNat)

/-- R132: the command byte that selects a slot's CGRAM row address. -/
def cgramCommand (slot : Int) : Except ErrorKind Byte :=
  if ¬ (1 ≤ slot ∧ slot ≤ 8) then .error .invalidSlot
  else .ok (BitVec.ofInt 8 ((slot - 1) * 8 + 0x40))

/-- R133: the data byte that prints a slot's glyph. -/
def glyphDrawByte (slot : Int) : Except ErrorKind Byte :=
  if ¬ (1 ≤ slot ∧ slot ≤ 8) then .error .invalidSlot
  else .ok (BitVec.ofInt 8 (slot - 1))

/-! ### Pin resolution -/

/-- PIN_TABLE(board), then its pin set for the socket (R14, R153): UnsupportedBoard is checked first. -/
def resolvePins (c : Config) (board : BoardKind) (socket : SocketId) : Except ErrorKind Pins :=
  match c.pinTable.lookup board with
  | none => .error .unsupportedBoard
  | some sockets =>
    match sockets.lookup socket with
    | none => .error .invalidSocket
    | some p => .ok p

end Sys2Proof.Machine
end

