-- ==== Sys2Proof/Machine/Transfer.lean ====
section
/-! DEFINITION. INIT and the frame transfer requests, spec/42_init_and_transfer.md.  Each request is its `validate` and `plan`
(R150) over the shared request cycle of Machine/Ops.lean. -/

namespace Sys2Proof.Machine

/-- R153's frames, all RS = 0: the texts "0x33", "0x32", "0x0C", "0x01" decode to exactly these (R8, R86). -/
def initBytes : List (Level × Byte) := [(false, 0x33), (false, 0x32), (false, 0x0C), (false, 0x01)]

/-- R153: resolve the pin set, then BIND and the four init frames. -/
def planInit (board : BoardKind) (socket : SocketId) (bl : Level) (c : Config) : Except ErrorKind (List MicroOp) := do
  let p ← resolvePins c board socket
  .ok (.bind bl p :: frames c initBytes)

/-- R153 INIT. -/
def execInit (board : BoardKind) (socket : SocketId) (bl : Level) (s : State) : Host.Outcome State Fault Refusal :=
  acceptInit (planInit board socket bl s.cfg) s

/-- R156 SEND_CMD: one frame with RS = 0; every byte is legal (R88). -/
def execSendCmd (b : Byte) (s : State) : Host.Outcome State Fault Refusal :=
  acceptReady (.ok (frame s.cfg false b)) s

/-- R157 SEND_DATA: one frame with RS = 1. -/
def execSendData (b : Byte) (s : State) : Host.Outcome State Fault Refusal :=
  acceptReady (.ok (frame s.cfg true b)) s

/-- R158's validation and plan. -/
def planSendEnc (text : Text) (c : Config) : Except ErrorKind (List MicroOp) := do
  let (rs, b) ← decodeRoutingText text
  .ok (frame c rs b)

/-- R158 SEND_ENC. -/
def execSendEnc (text : Text) (s : State) : Host.Outcome State Fault Refusal :=
  acceptReady (planSendEnc text s.cfg) s

/-- R159's validation and plan. -/
def planSendRaw (bits : Text) (c : Config) : Except ErrorKind (List MicroOp) := do
  let (rs, hi, lo) ← decodeRawFrame bits
  .ok (frame c rs (BitVec.ofNat 8 (16 * hi + lo)))

/-- R159 SEND_RAW. -/
def execSendRaw (bits : Text) (s : State) : Host.Outcome State Fault Refusal :=
  acceptReady (planSendRaw bits s.cfg) s

/-- R160 CLEAR: the frame (0, 0x01). -/
def execClear (s : State) : Host.Outcome State Fault Refusal :=
  acceptReady (.ok (frame s.cfg false 0x01)) s

end Sys2Proof.Machine
end

