-- ==== Sys2Proof/Machine/Display.lean ====
section
/-! DEFINITION. The cursor, text and glyph requests, spec/43_cursor_text_glyph.md, each with its own expansion (R79). -/

namespace Sys2Proof.Machine

/-- R180: the address as the raw frame "0" ++ "1" ++ bin_7(addr), decoded and sent as one command frame. -/
def planSetCursor (column row : Int) (c : Config) : Except ErrorKind (List MicroOp) := do
  let addr ← cursorAddress column row
  planSendRaw ([0x30, 0x31] ++ bin7 addr) c

/-- R180 SET_CURSOR. -/
def execSetCursor (column row : Int) (s : State) : Host.Outcome State Fault Refusal :=
  acceptReady (planSetCursor column row s.cfg) s

/-- R182: a code of at most 0xFF as the routing text "1x" ++ hex2(code), decoded and sent as one data frame. -/
def planWriteChar (code : Nat) (c : Config) : Except ErrorKind (List MicroOp) :=
  if 0xFF < code then .error .invalidEncoding
  else planSendEnc ([0x31, 0x78] ++ hex2 code) c

/-- R182 WRITE_CHAR. -/
def execWriteChar (code : Nat) (s : State) : Host.Outcome State Fault Refusal :=
  acceptReady (planWriteChar code s.cfg) s

/-- R183: every character is checked before the first frame is planned; then one data frame a character, in order. -/
def planWriteString (text : Text) (c : Config) : Except ErrorKind (List MicroOp) :=
  if text.any (fun code => decide (0xFF < code)) then .error .invalidEncoding
  else .ok (frames c (text.map fun code => (true, BitVec.ofNat 8 code)))

/-- R183 WRITE_STRING. -/
def execWriteString (text : Text) (s : State) : Host.Outcome State Fault Refusal :=
  acceptReady (planWriteString text s.cfg) s

/-- R184's row loop: every row's byte in order, or the first bad row's error. -/
def rowBytes (acceptShort : Bool) : List Text → Except ErrorKind (List Byte)
  | [] => .ok []
  | row :: rows => do
    let v ← binaryPatternToByte acceptShort row
    let vs ← rowBytes acceptShort rows
    .ok (v :: vs)

/-- R184: the slot, then the row count, then the rows; then the command frame and the eight data frames. -/
def planDefineGlyph (slot : Int) (rows : List Text) (c : Config) : Except ErrorKind (List MicroOp) := do
  let cmd ← cgramCommand slot
  if rows.length = 8 then do
    let vs ← rowBytes c.acceptShortRows rows
    .ok (frames c ((false, cmd) :: vs.map fun v => (true, v)))
  else .error .invalidEncoding

/-- R184 DEFINE_GLYPH. -/
def execDefineGlyph (slot : Int) (rows : List Text) (s : State) : Host.Outcome State Fault Refusal :=
  acceptReady (planDefineGlyph slot rows s.cfg) s

/-- R185: the slot's draw byte as one data frame. -/
def planDrawGlyph (slot : Int) (c : Config) : Except ErrorKind (List MicroOp) := do
  let b ← glyphDrawByte slot
  .ok (frame c true b)

/-- R185 DRAW_GLYPH. -/
def execDrawGlyph (slot : Int) (s : State) : Host.Outcome State Fault Refusal :=
  acceptReady (planDrawGlyph slot s.cfg) s

end Sys2Proof.Machine
end

