-- ==== Sys2Proof/Machine/SignalBus.lean ====
section
/-! DEFINITION. The micro-operations of the SignalBus, spec/40_signal_bus.md. -/

namespace Sys2Proof.Machine

/-- R101: five levels in one event; E and BL untouched. -/
def execSetLevels (rs d7 d6 d5 d4 : Level) (s : State) : Host.Outcome State Fault Refusal :=
  performMicro (.setLevels rs d7 d6 d5 d4) (emit (.levels rs d7 d6 d5 d4)) s

/-- R102's pseudocode: E high, a freshly drawn dwell of at least T_E_MIN, E low. -/
def strobe (s : State) : State :=
  let up := emit .eRise s
  let held := emit (.hold (dwell s.source s.draws)) { up with draws := s.draws + 1 }
  emit .eFall held

/-- R102: the timed strobe pulse. -/
def execLatch (s : State) : Host.Outcome State Fault Refusal :=
  performMicro .latch strobe s

/-- R109's pseudocode: a wait when T_SETTLE_AFTER of the frame is above 0, and nothing otherwise. -/
def settleWait (rs : Level) (b : Byte) (s : State) : State :=
  if 0 < settleTime s.cfg rs b then emit (.hold (settleTime s.cfg rs b)) s else s

/-- R109: the optional post-frame wait. -/
def execSettle (rs : Level) (b : Byte) (s : State) : Host.Outcome State Fault Refusal :=
  performMicro (.settle rs b) (settleWait rs b) s

/-- R103's pseudocode: take the pin set, and drive all seven lines in one event. -/
def takeLines (bl : Level) (p : Pins) (s : State) : State := emit (.bind bl) { s with bound := some p }

/-- R103: take ownership of the seven lines. -/
def execBind (bl : Level) (p : Pins) (s : State) : Host.Outcome State Fault Refusal :=
  performMicro (.bind bl p) (takeLines bl p) s

end Sys2Proof.Machine
end

