-- ==== Sys2Proof/Machine/Dispatch.lean ====
section
/-! DEFINITION. One arm per instruction. -/

namespace Sys2Proof.Machine

def exec (i : Instr) (s : State) : Host.Outcome State Fault Refusal :=
  match i with
  | .init board socket bl => Sys2Proof.Machine.execInit board socket bl s
  | .sendCmd b => Sys2Proof.Machine.execSendCmd b s
  | .sendData b => Sys2Proof.Machine.execSendData b s
  | .sendEnc text => Sys2Proof.Machine.execSendEnc text s
  | .sendRaw bits => Sys2Proof.Machine.execSendRaw bits s
  | .clear => Sys2Proof.Machine.execClear s
  | .setCursor column row => Sys2Proof.Machine.execSetCursor column row s
  | .writeChar code => Sys2Proof.Machine.execWriteChar code s
  | .writeString text => Sys2Proof.Machine.execWriteString text s
  | .defineGlyph slot rows => Sys2Proof.Machine.execDefineGlyph slot rows s
  | .drawGlyph slot => Sys2Proof.Machine.execDrawGlyph slot s
  | .setLevels rs d7 d6 d5 d4 => Sys2Proof.Machine.execSetLevels rs d7 d6 d5 d4 s
  | .latch => Sys2Proof.Machine.execLatch s
  | .settle rs b => Sys2Proof.Machine.execSettle rs b s
  | .bind bl p => Sys2Proof.Machine.execBind bl p s

end Sys2Proof.Machine
end

