-- ==== Sys2Proof/Machine/Step.lean ====
section
/-! DEFINITION. One step of the block (spec/42_init_and_transfer.md R150; notes/assumptions/9.md): a BUSY block performs the head
of `seq`, or completes its request when `seq` is empty; an IDLE block accepts the next request of its port. -/

namespace Sys2Proof.Machine

/-- One step.  IDLE with nothing at the port waits for the host (R241), and HALTED is final (R25): neither changes.  FAULTED
has "no further step" (R25) and answers its fault (notes/assumptions/10.md). -/
def step (s : State) : Host.Outcome State Fault Refusal :=
  match s.run with
  | .faulted f => .fault f
  | .halted _ => .next s
  | .busy =>
    match s.seq with
    | [] => .next (complete s)
    | m :: _ => exec m.toInstr s
  | .idle =>
    match fetch s with
    | .nothing => .next s
    | .request i rest => exec i { s with port := rest }
    | .malformed e => rejectRequest e s

/-- The state with one opcode-table word where `step` fetches its next instruction (notes/assumptions/15.md): the host has
issued the request, or the sequencer has reached the micro-operation.  A word that spells neither stands on
the port. -/
def State.withFetchWord (s : State) (nbits w : Nat) : State :=
  match decodeTableWord nbits w with
  | some i => s.place i
  | none => { s with run := .idle, seq := [], port := w % 2 ^ nbits :: zeroOperands ++ s.port }

end Sys2Proof.Machine
end

