-- ==== Sys2Proof/Machine/Flags.lean ====
section
/-! DEFINITION. The block has no flags and no condition codes (spec/10_state.md R31); what stands in their place is the status a
request ends with, in the 3-bit code of spec/30_encoding.md R76, and the 1-bit phase of spec/10_state.md R32. -/

namespace Sys2Proof.Machine

/-- The code of an error kind (R76, R210). -/
def ErrorKind.code : ErrorKind → BitVec 3
  | .unsupportedBoard => 1
  | .invalidSocket => 2
  | .invalidCursor => 3
  | .invalidFrame => 4
  | .invalidEncoding => 5
  | .invalidSlot => 6

/-- The 3-bit code of a status (R76); 7 is reserved, "never returned". -/
def Status.code : Status → BitVec 3
  | .ok => 0
  | .err k => k.code

/-- The phase as R32 codes it: UNINIT=0, READY=1. -/
def Phase.code : Phase → BitVec 1
  | .uninit => 0
  | .ready => 1

/-- R32's "last status": the code of the last request that ended; no value while `resp` is empty. -/
def State.lastStatus (s : State) : Option (BitVec 3) := s.resp.getLast?.map Status.code

end Sys2Proof.Machine
end

