-- ==== Sys2Proof/Machine/Observe.lean ====
section
/-! DEFINITION. What a run shows (spec/00_scope.md R15, R16): the pins as the trace gives them, the nibbles latched, the
frames they make, the events a list of micro-operations emits, and the time a stretch of the trace takes
(spec/40_signal_bus.md R105, spec/70_reset_and_hazards.md R253).  No step reads any of this. -/

namespace Sys2Proof.Machine

/-! ### Pins and frames from the trace -/

/-- The pins after a list of events. -/
def replayFrom (p : PinLevels) (evs : List PinEvent) : PinLevels := evs.foldl applyEvent p

/-- The pins a whole trace leaves, from reset's undriven pins (R27). -/
def replay (evs : List PinEvent) : PinLevels := replayFrom PinLevels.undriven evs

/-- A nibble latched by an E falling edge, with its RS level (R16). -/
structure LatchedNibble where
  rs  : Level
  nib : Nibble
  deriving DecidableEq, Repr

/-- The levels (RS, D7, D6, D5, D4) of the pins, when all five are driven; an UNBOUND pin has no value (R21). -/
def sample (p : PinLevels) : Option LatchedNibble :=
  match p.rs, p.d7, p.d6, p.d5, p.d4 with
  | .level rs, .level d7, .level d6, .level d5, .level d4 => some ⟨rs, ⟨d7, d6, d5, d4⟩⟩
  | _, _, _, _, _ => none

/-- The nibbles an event list latches from given pins, each sampled at its E_FALL (R16, R108). -/
def latchedFrom (p : PinLevels) : List PinEvent → List LatchedNibble
  | [] => []
  | .eFall :: evs => (sample p).toList ++ latchedFrom (applyEvent p .eFall) evs
  | .bind bl :: evs => latchedFrom (applyEvent p (.bind bl)) evs
  | .levels rs d7 d6 d5 d4 :: evs => latchedFrom (applyEvent p (.levels rs d7 d6 d5 d4)) evs
  | .eRise :: evs => latchedFrom (applyEvent p .eRise) evs
  | .hold t :: evs => latchedFrom (applyEvent p (.hold t)) evs

/-- The nibbles a whole trace latches. -/
def latched (evs : List PinEvent) : List LatchedNibble := latchedFrom PinLevels.undriven evs

/-- R16: "two consecutive latched nibbles of one frame form the pair `(rs, byte)` with byte = `hi*16 + lo`". -/
def frameView : List LatchedNibble → List (Level × Byte)
  | hi :: lo :: rest => (hi.rs, BitVec.ofNat 8 (hi.nib.value * 16 + lo.nib.value)) :: frameView rest
  | [_] => []
  | [] => []

/-- The frames on the pins so far (R16). -/
def State.frames (s : State) : List (Level × Byte) := frameView (latched s.trace)

/-- Latched nibbles that are whole frames: an even number, the two of each frame "sharing the same RS level" (R35, R59). -/
def wholeFrames : List LatchedNibble → Bool
  | hi :: lo :: rest => hi.rs == lo.rs && wholeFrames rest
  | [_] => false
  | [] => true

/-! ### The events a plan emits -/

/-- The events a micro-operation emits when `n` dwells of the source have been drawn before it (R101, R102, R103, R109). -/
def microEvents (c : Config) (source n : Nat) : MicroOp → List PinEvent
  | .setLevels rs d7 d6 d5 d4 => [.levels rs d7 d6 d5 d4]
  | .latch => [.eRise, .hold (dwell source n), .eFall]
  | .settle rs b => if 0 < settleTime c rs b then [.hold (settleTime c rs b)] else []
  | .bind bl _ => [.bind bl]

/-- How many dwells a micro-operation draws. -/
def microDraws : MicroOp → Nat
  | .setLevels _ _ _ _ _ => 0
  | .latch => 1
  | .settle _ _ => 0
  | .bind _ _ => 0

/-- The events a list of micro-operations emits, from the n-th dwell on. -/
def seqEvents (c : Config) (source n : Nat) : List MicroOp → List PinEvent
  | [] => []
  | m :: ms => microEvents c source n m ++ seqEvents c source (n + microDraws m) ms

/-- How many dwells a list of micro-operations draws: its LATCHes. -/
def seqDraws : List MicroOp → Nat
  | [] => 0
  | m :: ms => microDraws m + seqDraws ms

/-! ### Time -/

/-- An event with the duration of a HOLD forgotten: what is left when the dwell draws are not looked at (R104). -/
def PinEvent.untimed : PinEvent → PinEvent
  | .bind bl => .bind bl
  | .levels rs d7 d6 d5 d4 => .levels rs d7 d6 d5 d4
  | .eRise => .eRise
  | .hold _ => .hold 0
  | .eFall => .eFall

/-- A block with its draws forgotten, past and to come: what is the same whichever dwells were drawn (R68, R104). -/
def State.timeless (s : State) : State :=
  { s with trace := s.trace.map PinEvent.untimed, draws := 0, source := 0 }

/-- The duration an event itself takes: only HOLD lets time pass (R27, R107). -/
def PinEvent.duration : PinEvent → Nat
  | .bind _ => 0
  | .levels _ _ _ _ _ => 0
  | .eRise => 0
  | .hold t => t
  | .eFall => 0

/-- What the times of the events so far leave for the next: the end of the last event, and when the last LEVELS and the last
E_FALL were. -/
structure Clock where
  now    : Nat
  levels : Option Nat
  fall   : Option Nat
  deriving DecidableEq, Repr

/-- The clock of a run that starts at a time: no event yet. -/
def Clock.start (t : Nat) : Clock := ⟨t, none, none⟩

/-- The clock after an event that starts at `t`. -/
def Clock.after (clk : Clock) (t : Nat) : PinEvent → Clock
  | .bind _ => { clk with now := t }
  | .levels _ _ _ _ _ => { clk with now := t, levels := some t }
  | .eRise => { clk with now := t }
  | .hold d => { clk with now := t + d }
  | .eFall => { clk with now := t, fall := some t }

/-- The time a minimum after an earlier event leaves; no earlier event, no constraint. -/
def notBefore (since : Option Nat) (minimum : Nat) : Nat :=
  match since with
  | none => 0
  | some t => t + minimum

/-- The least time the three minima allow an event: T_HOLD_MIN after the last E_FALL for a LEVELS, and T_SETUP_MIN after the
last LEVELS and T_E_LOW_MIN after the last E_FALL for an E_RISE (R9, R105). -/
def earliest (c : Config) (clk : Clock) : PinEvent → Nat
  | .bind _ => 0
  | .levels _ _ _ _ _ => notBefore clk.fall c.tHoldMin
  | .eRise => max (notBefore clk.levels c.tSetupMin) (notBefore clk.fall c.tELowMin)
  | .hold _ => 0
  | .eFall => 0

/-- When the k-th event of a run starts: not before the last event's end, not before the minima allow it, and T_GAP, a free
draw of at least 0, later (R105; notes/assumptions/8.md). -/
def eventStart (c : Config) (source k : Nat) (clk : Clock) (ev : PinEvent) : Nat :=
  max clk.now (earliest c clk ev) + Config.gap source k

/-- The events with their starting times, when the first is the k-th of the run. -/
def timeline (c : Config) (source k : Nat) (clk : Clock) : List PinEvent → List (Nat × PinEvent)
  | [] => []
  | ev :: evs =>
    (eventStart c source k clk ev, ev)
      :: timeline c source (k + 1) (clk.after (eventStart c source k clk ev) ev) evs

/-- The time from the start of the first event to the end of the last. -/
def span : List (Nat × PinEvent) → Nat
  | [] => 0
  | x :: xs => (xs.getLastD x).1 + (xs.getLastD x).2.duration - x.1

/-- The run's trace with its times, when the run starts from reset at time `start`; the time from there to the first event is
the first draw. -/
def State.timeline (start : Nat) (s : State) : List (Nat × PinEvent) :=
  Machine.timeline s.cfg s.source 0 (Clock.start start) s.trace

/-- The time of the first E_RISE of the run, if there has been one (R246). -/
def State.firstRise (start : Nat) (s : State) : Option Nat :=
  ((s.timeline start).find? fun x => decide (x.2 = .eRise)).map Prod.fst

/-! ### The observation -/

/-- R15: what a run shows is the triple (pin trace, response list, final state). -/
structure Observation where
  trace : List PinEvent
  resp  : List Status
  final : State
  deriving DecidableEq, Repr

/-- The observation at a state. -/
def observe (s : State) : Observation := ⟨s.trace, s.resp, s⟩

end Sys2Proof.Machine
end

