-- ==== Sys2Proof/Machine/System.lean ====
section
/-! DEFINITION. Several blocks (spec/20_memory.md R68, spec/60_exceptions.md R229, spec/70_reset_and_hazards.md R250): each is its
own State, they share nothing, which one steps next is the environment's choice, and no two may share a line
(notes/assumptions/18.md). -/

namespace Sys2Proof.Machine

/-- Blocks side by side, one per physical display (R229). -/
structure System where
  blocks : List State
  deriving DecidableEq, Repr

/-- Two pin sets with a physical line in common (R250). -/
def sharesLine (p q : Pins) : Bool := p.toList.any fun h => q.toList.contains h

/-- Whether a block's bound lines are apart from those of every block of a list. -/
def apartFrom (s : State) (others : List State) : Bool :=
  others.all fun t =>
    match s.bound, t.bound with
    | some p, some q => !sharesLine p q
    | some _, none => true
    | none, _ => true

/-- Whether no two blocks of a list have bound a common line. -/
def linesApart : List State → Bool
  | [] => true
  | s :: rest => apartFrom s rest && linesApart rest

/-- One step of block `k`, which draws from source `k` whatever its State held: every block has its own draws, so nothing
relates the traces of two blocks (R68; notes/assumptions/25.md).  A system in which two blocks' lines overlap has no run (R250). -/
def System.stepBlock (k : Nat) (sys : System) : Host.Outcome System Fault Refusal :=
  match sys.blocks[k]? with
  | none => .refused .noSuchBlock
  | some s =>
    match step { s with source := k } with
    | .next t =>
      if linesApart (sys.blocks.set k t) then .next ⟨sys.blocks.set k t⟩ else .refused .sharedLine
    | .fault f => .fault f
    | .refused r => .refused r

end Sys2Proof.Machine
end

