-- ==== Sys2Proof/Safety.lean ====
section
/-! DEFINITION. What counts as a safe run, in the terms claims use: the invariants of spec/10_state.md section 6 and the shape
of the sequencer, the end of a run (spec/70_reset_and_hazards.md R254), and the host's duty before INIT. -/

namespace Sys2Proof.Machine

/-- BIND, the micro-operation that takes the lines (R103). -/
def MicroOp.isBind : MicroOp → Bool
  | .setLevels _ _ _ _ _ => false
  | .latch => false
  | .settle _ _ => false
  | .bind _ _ => true

/-- A run with a fault "refutes every claim" (R254): a safe state has none. -/
def State.NoFault (s : State) : Prop := ∀ f, s.run ≠ .faulted f

/-- R254: a run ends when the host issues no further request and `run` is IDLE, or when `run` is HALTED. -/
def State.RunEnded (s : State) : Prop := (s.run = .idle ∧ s.port = []) ∨ ∃ k, s.run = .halted k

/-- H-4 of R245, a premise of any claim about the display (R246): at least T_POWER_SETTLE between the display's power-on
and the first E_RISE of the run, for a run started from reset at `start` that has come to `s`.  No step reads it. -/
def PowerOnSettled (powerOn start : Nat) (s : State) : Prop :=
  ∀ firstRise, s.firstRise start = some firstRise → powerOn + Config.tPowerSettle ≤ firstRise

/-- What every step keeps: `seq` only while BUSY (R26), pins driven exactly when bound (R21), E low between
micro-operations (R34, R106), a binding in READY and none in UNINIT but for an INIT in flight (R24, R227), BIND first
and once (R100, R103), and pins that only events changed (R12). -/
structure State.Inv (s : State) : Prop where
  seq_only_while_busy : s.run ≠ .busy → s.seq = []
  unbound_undriven : s.bound = none → ∀ g : Signal, s.pin.get g = .unbound
  bound_driven : s.bound ≠ none → ∀ g : Signal, s.pin.get g ≠ .unbound
  strobe_low : s.bound ≠ none → s.pin.e = .level false
  ready_bound : s.phase = .ready → s.bound ≠ none
  uninit_unbound : s.phase = .uninit → s.run ≠ .busy → s.bound = none
  bind_first : s.run = .busy → s.bound = none →
    ∃ bl p rest, s.seq = .bind bl p :: rest ∧ ∀ m ∈ rest, m.isBind = false
  bind_once : s.bound ≠ none → ∀ m ∈ s.seq, m.isBind = false
  pins_from_trace : s.pin = replay s.trace

/-- The frames the block has latched and the micro-operations it has still to perform make whole frames: an even number
of nibbles, each pair with one RS level (R35, R59). -/
def State.FramesAligned (s : State) : Prop :=
  wholeFrames (latched (s.trace ++ seqEvents s.cfg s.source s.draws s.seq)) = true

/-- Under a configuration whose pin sets are all of distinct handles, the lines bound are distinct and the sequencer holds
only well-formed micro-operations (R14, R244). -/
def State.LinesDistinct (s : State) : Prop :=
  s.cfg.wellFormed = true →
    (∀ p, s.bound = some p → p.distinct = true) ∧ ∀ m ∈ s.seq, WellFormed m.toInstr = true

/-- `k` steps, stopping at the first fault or refusal: the runs the claims speak of. -/
def runSteps : Nat → State → Host.Outcome State Fault Refusal
  | 0, s => .next s
  | k + 1, s =>
    match step s with
    | .next t => runSteps k t
    | .fault f => .fault f
    | .refused r => .refused r

end Sys2Proof.Machine
end

