-- ==== Sys2Proof/Certificates/Slice0/Obligations.lean ====
section
/-! DEFINITION. The statements about the model, for the provers.  An accepted request answers the state with its plan in `seq` and
`run` BUSY (spec/42_init_and_transfer.md R150); the steps that follow perform the plan. -/

open Sys2Proof Sys2Proof.Machine

/-! ### The signal bus (spec/40_signal_bus.md) -/

/-- R101: its word `0 r d7 d6 d5 d4`, and the whole next state, so this is SET_LEVELS's frame too: phase, run, resp, cfg, port, draws and source are as before. -/
def Obligations.SetLevelsDrivesFiveLinesInOneEvent : Prop :=
  ∀ (rs d7 d6 d5 d4 : Level) (rest : List MicroOp) (s : State),
    encode (.setLevels rs d7 d6 d5 d4) =
      [16 * rs.toNat + 8 * d7.toNat + 4 * d6.toNat + 2 * d5.toNat + d4.toNat] ∧
    (s.run = .busy → s.seq = .setLevels rs d7 d6 d5 d4 :: rest →
      exec (.setLevels rs d7 d6 d5 d4) s =
        .next { s with
          pin := { s.pin with
            rs := .level rs, d7 := .level d7, d6 := .level d6, d5 := .level d5, d4 := .level d4 }
          trace := s.trace ++ [.levels rs d7 d6 d5 d4]
          seq := rest })

/-- R102, R104. The whole next state, with the dwell an unknown duration of at least T_E_MIN = 1 ms; how the dwell is
drawn (the counter `draws`) is the model's choice, notes/assumptions/7.md. -/
def Obligations.LatchStrobesForAtLeastOneMillisecond : Prop :=
  ∀ (rest : List MicroOp) (s : State), s.run = .busy → s.seq = .latch :: rest →
    ∃ t : Nat, 1000 ≤ t ∧
      exec .latch s =
        .next { s with
          pin := { s.pin with e := .level false }
          trace := s.trace ++ [.eRise, .hold t, .eFall]
          seq := rest
          draws := s.draws + 1 }

/-- R109: its word `1 1 0 0 0 0`, and the whole next state: one HOLD of T_SETTLE_AFTER(rs, b) when that is above 0,
nothing otherwise. -/
def Obligations.SettleWaitsOnlyWhenPositive : Prop :=
  ∀ (rs : Level) (b : Byte) (rest : List MicroOp) (s : State),
    s.run = .busy → s.seq = .settle rs b :: rest →
    (encode (.settle rs b)).head? = some 0b110000 ∧
    (0 < settleTime s.cfg rs b →
      exec (.settle rs b) s =
        .next { s with trace := s.trace ++ [.hold (settleTime s.cfg rs b)], seq := rest }) ∧
    (settleTime s.cfg rs b = 0 → exec (.settle rs b) s = .next { s with seq := rest })

/-- R103. The whole next state: the pin set bound, all seven pins driven in one event. -/
def Obligations.BindTakesAndDrivesTheSevenLines : Prop :=
  ∀ (bl : Level) (p : Pins) (rest : List MicroOp) (s : State),
    s.run = .busy → s.seq = .bind bl p :: rest →
    exec (.bind bl p) s =
      .next { s with
        bound := some p
        pin := ⟨.level false, .level false, .level false, .level false, .level false, .level false, .level bl⟩
        trace := s.trace ++ [.bind bl]
        seq := rest }

/-- R100: a micro-operation "runs only while `run = BUSY`, takes the head of `seq`". That it is refused elsewhere,
under this name, is the model's choice, notes/assumptions/13.md. -/
def Obligations.MicroOperationRunsOnlyAsHeadOfBusyBlock : Prop :=
  ∀ (m : MicroOp) (s : State), ¬ (s.run = .busy ∧ s.seq.head? = some m) →
    exec m.toInstr s = .refused .microOpNotNext

/-! ### Frames (spec/30_encoding.md section 4, spec/42_init_and_transfer.md R151) -/

/-- R151: the eight events of a frame, the settle wait after them when it is non-zero, and the levels it leaves. -/
def Obligations.FrameEmitsEightEventsHighNibbleFirst : Prop :=
  ∀ (c : Config) (source n : Nat) (rs : Level) (b : Byte) (p : PinLevels),
    (∃ t1 t2 : Nat, 1000 ≤ t1 ∧ 1000 ≤ t2 ∧
      seqEvents c source n (frame c rs b) =
        [.levels rs (b.getLsbD 7) (b.getLsbD 6) (b.getLsbD 5) (b.getLsbD 4), .eRise, .hold t1, .eFall,
         .levels rs (b.getLsbD 3) (b.getLsbD 2) (b.getLsbD 1) (b.getLsbD 0), .eRise, .hold t2, .eFall]
        ++ (if settleTime c rs b = 0 then [] else [.hold (settleTime c rs b)])) ∧
    replayFrom p (seqEvents c source n (frame c rs b)) =
      { p with
        rs := .level rs, d7 := .level (b.getLsbD 3), d6 := .level (b.getLsbD 2)
        d5 := .level (b.getLsbD 1), d4 := .level (b.getLsbD 0), e := .level false }

/-- R16, R82: whatever the pins were, a list of frames latches exactly those frames, bytes and RS levels. -/
def Obligations.FramesLatchTheirBytes : Prop :=
  ∀ (c : Config) (source n : Nat) (fs : List (Level × Byte)) (p : PinLevels),
    frameView (latchedFrom p (seqEvents c source n (frames c fs))) = fs

/-! ### INIT and the transfer requests (spec/42_init_and_transfer.md) -/

/-- R153: BIND with the resolved pin set, then the four init frames, all RS = 0; only `seq` and `run` change. -/
def Obligations.InitPlansBindAndFourFrames : Prop :=
  ∀ (board : BoardKind) (socket : SocketId) (bl : Level) (sockets : List (SocketId × Pins)) (p : Pins) (s : State),
    s.run = .idle → s.phase = .uninit →
    s.cfg.pinTable.lookup board = some sockets → sockets.lookup socket = some p →
    exec (.init board socket bl) s =
      .next { s with
        run := .busy
        seq := .bind bl p :: (frame s.cfg false 0x33 ++ frame s.cfg false 0x32 ++ frame s.cfg false 0x0C
          ++ frame s.cfg false 0x01) }

/-- R153, R154, R217: an unknown board is UnsupportedBoard, whatever the socket; a known board's socket without a pin
set is InvalidSocket; nothing but `resp` and `run` changes. -/
def Obligations.InitUnresolvedReturnsItsError : Prop :=
  ∀ (board : BoardKind) (socket : SocketId) (bl : Level) (s : State), s.run = .idle → s.phase = .uninit →
    (s.cfg.pinTable.lookup board = none →
      exec (.init board socket bl) s =
        .next { s with
          resp := s.resp ++ [.err .unsupportedBoard]
          run := if s.cfg.errorPolicy = .halt then .halted .unsupportedBoard else .idle }) ∧
    (∀ sockets, s.cfg.pinTable.lookup board = some sockets → sockets.lookup socket = none →
      exec (.init board socket bl) s =
        .next { s with
          resp := s.resp ++ [.err .invalidSocket]
          run := if s.cfg.errorPolicy = .halt then .halted .invalidSocket else .idle })

/-- R156, R157, R160: SEND_CMD, SEND_DATA and CLEAR plan one frame for every byte and raise no error. -/
def Obligations.ByteRequestsPlanOneFrame : Prop :=
  ∀ (b : Byte) (s : State), s.run = .idle → s.phase = .ready →
    exec (.sendCmd b) s = .next { s with run := .busy, seq := frame s.cfg false b } ∧
    exec (.sendData b) s = .next { s with run := .busy, seq := frame s.cfg true b } ∧
    exec .clear s = .next { s with run := .busy, seq := frame s.cfg false 0x01 }

/-- R126, R158: exactly the texts of a routing digit, 'x' and two hex digits send a frame; any other text is
InvalidEncoding and changes only `resp` and `run`. -/
def Obligations.SendEncSendsExactlyRoutingTexts : Prop :=
  ∀ (s : State), s.run = .idle → s.phase = .ready →
    (∀ (rs : Level) (c2 c3 : Nat) (h l : Nat), hexValue c2 = .ok h → hexValue c3 = .ok l →
      exec (.sendEnc [if rs then 0x31 else 0x30, 0x78, c2, c3]) s =
        .next { s with run := .busy, seq := frame s.cfg rs (BitVec.ofNat 8 (16 * h + l)) }) ∧
    (∀ text : Text,
      (∀ (rs : Level) (c2 c3 : Nat) (h l : Nat), hexValue c2 = .ok h → hexValue c3 = .ok l →
        text ≠ [if rs then 0x31 else 0x30, 0x78, c2, c3]) →
      exec (.sendEnc text) s =
        .next { s with
          resp := s.resp ++ [.err .invalidEncoding]
          run := if s.cfg.errorPolicy = .halt then .halted .invalidEncoding else .idle })

/-- R55, R127, R159: exactly the nine-character texts of '0' and '1' send a frame, character 0 its RS and character k
its bit 8-k; any other text is InvalidFrame and changes only `resp` and `run`. -/
def Obligations.SendRawSendsExactlyNineBits : Prop :=
  ∀ (s : State), s.run = .idle → s.phase = .ready →
    (∀ (rs : Level) (b : Byte),
      exec (.sendRaw ([rs, b.getLsbD 7, b.getLsbD 6, b.getLsbD 5, b.getLsbD 4, b.getLsbD 3, b.getLsbD 2,
          b.getLsbD 1, b.getLsbD 0].map binChar)) s =
        .next { s with run := .busy, seq := frame s.cfg rs b }) ∧
    (∀ bits : Text, ¬ (bits.length = 9 ∧ ∀ c ∈ bits, c = 0x30 ∨ c = 0x31) →
      exec (.sendRaw bits) s =
        .next { s with
          resp := s.resp ++ [.err .invalidFrame]
          run := if s.cfg.errorPolicy = .halt then .halted .invalidFrame else .idle })

/-! ### Cursor, text and glyph requests (spec/43_cursor_text_glyph.md) -/

/-- R131, R180: on the 2 x 40 positions, the command byte 0x80 | address, the address the column on row 0 and 64 +
column on row 1; anywhere else InvalidCursor, changing only `resp` and `run`. -/
def Obligations.SetCursorSendsTheDdramCommand : Prop :=
  ∀ (column row : Int) (s : State), s.run = .idle → s.phase = .ready →
    (0 ≤ column → column < 40 → row = 0 ∨ row = 1 →
      exec (.setCursor column row) s =
        .next { s with
          run := .busy
          seq := frame s.cfg false (0x80#8 ||| BitVec.ofInt 8 (if row = 0 then column else 64 + column)) }) ∧
    (¬ (0 ≤ column ∧ column < 40 ∧ 0 ≤ row ∧ row ≤ 1) →
      exec (.setCursor column row) s =
        .next { s with
          resp := s.resp ++ [.err .invalidCursor]
          run := if s.cfg.errorPolicy = .halt then .halted .invalidCursor else .idle })

/-- R182: a code of at most 0xFF goes out as the data byte itself; a larger one is InvalidEncoding. -/
def Obligations.WriteCharSendsTheCodeAsData : Prop :=
  ∀ (code : Nat) (s : State), s.run = .idle → s.phase = .ready →
    (code ≤ 0xFF →
      exec (.writeChar code) s = .next { s with run := .busy, seq := frame s.cfg true (BitVec.ofNat 8 code) }) ∧
    (0xFF < code →
      exec (.writeChar code) s =
        .next { s with
          resp := s.resp ++ [.err .invalidEncoding]
          run := if s.cfg.errorPolicy = .halt then .halted .invalidEncoding else .idle })

/-- R183: one data frame a character, in text order, for a text of any length, the empty one included; one bad
character anywhere and no frame at all is planned. -/
def Obligations.WriteStringSendsAllOrNothing : Prop :=
  ∀ (text : Text) (s : State), s.run = .idle → s.phase = .ready →
    ((∀ code ∈ text, code ≤ 0xFF) →
      exec (.writeString text) s =
        .next { s with run := .busy, seq := text.flatMap fun code => frame s.cfg true (BitVec.ofNat 8 code) }) ∧
    ((∃ code ∈ text, 0xFF < code) →
      exec (.writeString text) s =
        .next { s with
          resp := s.resp ++ [.err .invalidEncoding]
          run := if s.cfg.errorPolicy = .halt then .halted .invalidEncoding else .idle })

/-- R184: the slot's command byte, then the eight row bytes as data; the slot is checked before the row count and the
rows. -/
def Obligations.DefineGlyphSendsCommandThenEightRows : Prop :=
  ∀ (slot : Int) (rows : List Text) (s : State), s.run = .idle → s.phase = .ready →
    (∀ vs : List Byte, 1 ≤ slot → slot ≤ 8 → rows.length = 8 →
      List.Forall₂ (fun row v => binaryPatternToByte s.cfg.acceptShortRows row = .ok v) rows vs →
      exec (.defineGlyph slot rows) s =
        .next { s with
          run := .busy
          seq := frame s.cfg false (BitVec.ofInt 8 ((slot - 1) * 8 + 0x40))
            ++ vs.flatMap fun v => frame s.cfg true v }) ∧
    (¬ (1 ≤ slot ∧ slot ≤ 8) →
      exec (.defineGlyph slot rows) s =
        .next { s with
          resp := s.resp ++ [.err .invalidSlot]
          run := if s.cfg.errorPolicy = .halt then .halted .invalidSlot else .idle }) ∧
    (1 ≤ slot → slot ≤ 8 →
      (rows.length ≠ 8 ∨ ∃ row ∈ rows, ∃ k, binaryPatternToByte s.cfg.acceptShortRows row = .error k) →
      exec (.defineGlyph slot rows) s =
        .next { s with
          resp := s.resp ++ [.err .invalidEncoding]
          run := if s.cfg.errorPolicy = .halt then .halted .invalidEncoding else .idle })

/-- R185: slots 1 to 8 send the data byte slot - 1; any other is InvalidSlot. -/
def Obligations.DrawGlyphSendsSlotMinusOne : Prop :=
  ∀ (slot : Int) (s : State), s.run = .idle → s.phase = .ready →
    (1 ≤ slot → slot ≤ 8 →
      exec (.drawGlyph slot) s =
        .next { s with run := .busy, seq := frame s.cfg true (BitVec.ofInt 8 (slot - 1)) }) ∧
    (¬ (1 ≤ slot ∧ slot ≤ 8) →
      exec (.drawGlyph slot) s =
        .next { s with
          resp := s.resp ++ [.err .invalidSlot]
          run := if s.cfg.errorPolicy = .halt then .halted .invalidSlot else .idle })

/-- R79: every row of its table. A request expands to another when its meaning is the other's in every state; a
request of several frames when its plan is theirs end to end. -/
def Obligations.RequestsEqualTheirExpansions : Prop :=
  (∀ s, exec .clear s = exec (.sendCmd 0x01) s) ∧
  (∀ s code, code ≤ 0xFF → exec (.writeChar code) s = exec (.sendEnc ([0x31, 0x78] ++ hex2 code)) s) ∧
  (∀ s column row addr, cursorAddress column row = .ok addr →
    exec (.setCursor column row) s = exec (.sendRaw ([0x30] ++ [0x31] ++ bin7 addr)) s) ∧
  (∀ s (slot : Int), 1 ≤ slot → slot ≤ 8 →
    exec (.drawGlyph slot) s = exec (.sendData (BitVec.ofInt 8 (slot - 1))) s) ∧
  (∀ s c2 c3 b, decodeHexPair [c2, c3] = .ok b →
    exec (.sendEnc [0x30, 0x78, c2, c3]) s = exec (.sendCmd b) s ∧
    exec (.sendEnc [0x31, 0x78, c2, c3]) s = exec (.sendData b) s) ∧
  (∀ s bits rs hi lo, decodeRawFrame bits = .ok (rs, hi, lo) →
    exec (.sendRaw bits) s =
      exec (if rs then .sendData (BitVec.ofNat 8 (16 * hi + lo)) else .sendCmd (BitVec.ofNat 8 (16 * hi + lo))) s) ∧
  (∀ (s : State) (text : Text), s.run = .idle → s.phase = .ready → (∀ code ∈ text, code ≤ 0xFF) →
    ∃ plans : List (List MicroOp),
      List.Forall₂ (fun code ops => exec (.writeChar code) s = .next { s with run := .busy, seq := ops }) text plans ∧
      exec (.writeString text) s = .next { s with run := .busy, seq := plans.flatten }) ∧
  (∀ (s : State) (slot : Int) (rows : List Text) (vs : List Byte), s.run = .idle → s.phase = .ready →
    1 ≤ slot → slot ≤ 8 → rows.length = 8 →
    List.Forall₂ (fun row v => binaryPatternToByte s.cfg.acceptShortRows row = .ok v) rows vs →
    ∃ (cmdOps : List MicroOp) (plans : List (List MicroOp)),
      exec (.sendCmd (BitVec.ofInt 8 ((slot - 1) * 8 + 0x40))) s = .next { s with run := .busy, seq := cmdOps } ∧
      List.Forall₂ (fun v ops => exec (.sendData v) s = .next { s with run := .busy, seq := ops }) vs plans ∧
      exec (.defineGlyph slot rows) s = .next { s with run := .busy, seq := cmdOps ++ plans.flatten }) ∧
  (∀ (s : State) board socket bl p, s.run = .idle → s.phase = .uninit → resolvePins s.cfg board socket = .ok p →
    ∃ plans : List (List MicroOp),
      List.Forall₂
        (fun text ops => exec (.sendEnc text) { s with phase := .ready } =
          .next { s with phase := .ready, run := .busy, seq := ops })
        [[0x30, 0x78, 0x33, 0x33], [0x30, 0x78, 0x33, 0x32], [0x30, 0x78, 0x30, 0x43], [0x30, 0x78, 0x30, 0x31]]
        plans ∧
      exec (.init board socket bl) s = .next { s with run := .busy, seq := .bind bl p :: plans.flatten })

/-! ### Codec functions (spec/41_codec.md) -/

/-- R123: the digits and letters of both cases, and InvalidEncoding for any other code. -/
def Obligations.HexValueReadsExactlyTheHexDigits : Prop :=
  ∀ c : Nat,
    (0x30 ≤ c → c ≤ 0x39 → hexValue c = .ok (c - 0x30)) ∧
    (0x41 ≤ c → c ≤ 0x46 → hexValue c = .ok (c - 0x41 + 10)) ∧
    (0x61 ≤ c → c ≤ 0x66 → hexValue c = .ok (c - 0x61 + 10)) ∧
    (¬ (0x30 ≤ c ∧ c ≤ 0x39) → ¬ (0x41 ≤ c ∧ c ≤ 0x46) → ¬ (0x61 ≤ c ∧ c ≤ 0x66) →
      hexValue c = .error .invalidEncoding)

/-- R57, R128, R129: the first five characters by weight 16, 8, 4, 2, 1 and no other; a short pattern fails unless
ACCEPT_SHORT_ROWS is set, and then keeps its weights by position; a non-binary character among the first five fails.
-/
def Obligations.RowPatternsReadFiveWeightedBits : Prop :=
  (∀ (short : Bool) (a b c d e : Bool) (tail : Text),
    binaryPatternToByte short ([a, b, c, d, e].map binChar ++ tail) =
      .ok (BitVec.ofNat 8 (16 * a.toNat + 8 * b.toNat + 4 * c.toNat + 2 * d.toNat + e.toNat))) ∧
  (∀ p : Text, p.length < 5 → binaryPatternToByte false p = .error .invalidEncoding) ∧
  (∀ bits : List Bool, bits.length < 5 →
    binaryPatternToByte true (bits.map binChar) =
      .ok (BitVec.ofNat 8 (((bits.zip [16, 8, 4, 2, 1]).map fun x => x.1.toNat * x.2).sum))) ∧
  (∀ (short : Bool) (p : Text) (c : Nat), c ∈ p.take 5 → c ≠ 0x30 → c ≠ 0x31 →
    binaryPatternToByte short p = .error .invalidEncoding)

/-- R134, its five laws. -/
def Obligations.CodecLawsHold : Prop :=
  (∀ b : Byte, 16 * (nibbleHigh b).value + (nibbleLow b).value = b.toNat) ∧
  (∀ b : Byte, decodeHexPair (hex2 b.toNat) = .ok b) ∧
  (∀ (rs : Level) (b : Byte), decodeRoutingText ([binChar rs, 0x78] ++ hex2 b.toNat) = .ok (rs, b)) ∧
  (∀ a : Nat, a < 128 →
    decodeRawFrame ([0x30] ++ [0x31] ++ bin7 a) =
      .ok (false, (nibbleHigh (0x80#8 ||| BitVec.ofNat 8 a)).value, (nibbleLow (0x80#8 ||| BitVec.ofNat 8 a)).value)) ∧
  (∀ column row : Int, 0 ≤ column → column < 40 → row = 0 ∨ row = 1 →
    ∃ addr hi lo, cursorAddress column row = .ok addr ∧
      decodeRawFrame ([0x30] ++ [0x31] ++ bin7 addr) = .ok (false, hi, lo) ∧
      BitVec.ofNat 8 (16 * hi + lo) = 0x80#8 ||| BitVec.ofInt 8 (if row = 0 then column else 64 + column))

/-- R76: the seven status codes; they differ from each other, and 7 is none of them. -/
def Obligations.StatusCodesAreTheTable : Prop :=
  Status.ok.code = 0 ∧ (Status.err .unsupportedBoard).code = 1 ∧ (Status.err .invalidSocket).code = 2 ∧
  (Status.err .invalidCursor).code = 3 ∧ (Status.err .invalidFrame).code = 4 ∧
  (Status.err .invalidEncoding).code = 5 ∧ (Status.err .invalidSlot).code = 6 ∧
  (∀ x y : Status, x.code = y.code → x = y) ∧ ∀ x : Status, x.code ≠ 7

/-! ### Errors and faults (spec/60_exceptions.md) -/

/-- R37, R212, R213: a request that ends with an error changes only `resp` and `run`: the block is IDLE under
`report`, and under `halt` HALTED(k), which accepts no further request. That a HALTED block's step is a step to the
same state, so that no number of steps changes it, is the model's choice, notes/assumptions/10.md; cfg, port, draws and
source are the model's own fields. -/
def Obligations.ErrorLeavesTheBlockUnchanged : Prop :=
  ∀ (i : Instr) (s t : State) (k : ErrorKind), i.isRequest = true → s.run = .idle →
    exec i s = .next t → t.resp = s.resp ++ [.err k] →
    t.pin = s.pin ∧ t.bound = s.bound ∧ t.phase = s.phase ∧ t.trace = s.trace ∧ t.seq = s.seq ∧
    t.cfg = s.cfg ∧ t.port = s.port ∧ t.draws = s.draws ∧ t.source = s.source ∧
    (s.cfg.errorPolicy = .report → t.run = .idle) ∧
    (s.cfg.errorPolicy = .halt → t.run = .halted k ∧ ∀ n, runSteps n t = .next t)

/-- R219: any request but INIT in UNINIT records NotReady, whatever its operands, and does nothing else. -/
def Obligations.RequestBeforeInitFaultsNotReady : Prop :=
  ∀ (i : Instr) (s : State), i.isRequest = true → i.isInit = false → s.run = .idle → s.phase = .uninit →
    exec i s = .next { s with run := .faulted .notReady }

/-- R221: INIT in READY records AlreadyInitialized, whatever its operands, and does nothing else. -/
def Obligations.SecondInitFaultsAlreadyInitialized : Prop :=
  ∀ (board : BoardKind) (socket : SocketId) (bl : Level) (s : State), s.run = .idle → s.phase = .ready →
    exec (.init board socket bl) s = .next { s with run := .faulted .alreadyInitialized }

/-- R74, R217, R222: a request with opcode 0x0 or 0xC..0xF records IllegalRequest in either phase, before any other
check, and emits no event. The opcode as the port's first word is the model's choice, notes/assumptions/2.md. -/
def Obligations.ReservedOpcodeFaultsIllegalRequest : Prop :=
  ∀ (op : Nat) (ws : List Nat) (s : State), s.run = .idle → s.port = op :: ws → op < 16 →
    (op = 0 ∨ 12 ≤ op) →
    step s = .next { s with run := .faulted .illegalRequest }

/-- R25, R220: a step answers a fault exactly in a FAULTED block, and then the fault recorded. That the outcome is a
fault and not a state that stays is the model's choice, notes/assumptions/10.md. -/
def Obligations.OnlyAFaultedBlockStopsWithItsFault : Prop :=
  ∀ (s : State) (f : Fault), step s = .fault f ↔ s.run = .faulted f

/-- R218: only these events record a fault, each with its kind. The port's words are the model's choice,
notes/assumptions/2.md. -/
def Obligations.FaultsComeOnlyFromMisuse : Prop :=
  ∀ (s t : State) (f : Fault), step s = .next t → t.run = .faulted f →
    s.run = .idle ∧
    ((f = .notReady ∧ s.phase = .uninit ∧
        ∃ i rest, decode .request s.port = .ok (i, rest) ∧ i.isInit = false) ∨
     (f = .alreadyInitialized ∧ s.phase = .ready ∧
        ∃ i rest, decode .request s.port = .ok (i, rest) ∧ i.isInit = true) ∨
     (f = .illegalRequest ∧ ∃ op ws, s.port = op :: ws ∧ op < 16 ∧ (op = 0 ∨ 12 ≤ op)))

/-- R71: a request offered while a request is in flight, or to a HALTED block, is not accepted. That the offer is a
next state, unchanged, is the model's choice, notes/assumptions/13.md. -/
def Obligations.RequestIsNotAcceptedWhileBusyOrHalted : Prop :=
  ∀ (i : Instr) (s : State), i.isRequest = true → (s.run = .busy ∨ ∃ k, s.run = .halted k) → exec i s = .next s

/-! ### Steps and runs -/

/-- The step of an IDLE block runs the request its port's words decode to, the words taken off the port. The port and
its words are the model's choice, notes/assumptions/1.md and 2.md. -/
def Obligations.StepRunsTheDecodedRequest : Prop :=
  ∀ (i : Instr) (rest : List Nat) (s : State), s.run = .idle → decode .request s.port = .ok (i, rest) →
    step s = exec i { s with port := rest }

/-- The step of a BUSY block runs the head micro-operation of `seq` (R100). -/
def Obligations.StepPerformsTheHeadMicroOperation : Prop :=
  ∀ (m : MicroOp) (rest : List MicroOp) (s : State), s.run = .busy → s.seq = m :: rest →
    step s = exec m.toInstr s

/-- R66, R150: when `seq` is empty, the request's status is appended and the block is IDLE, in phase READY. That READY
is written for every request, INIT or not, is the model's reading, notes/assumptions/11.md. -/
def Obligations.EmptySequenceCompletesTheRequest : Prop :=
  ∀ s : State, s.run = .busy → s.seq = [] →
    step s = .next { s with phase := .ready, resp := s.resp ++ [.ok], run := .idle }

/-- R241, R254: with nothing at the port an IDLE block waits, and a HALTED block is final; neither changes. That each
is a step to the same state is the model's choice, notes/assumptions/10.md. -/
def Obligations.WaitingAndHaltedBlocksDoNotChange : Prop :=
  ∀ s : State, s.RunEnded → step s = .next s

/-- R62, R66, R226: every request in flight, from every state, performs all its micro-operations, one a step, and only
then returns OK. That READY is written whichever request was in flight is the model's reading,
notes/assumptions/11.md. -/
def Obligations.RequestInFlightRunsToCompletion : Prop :=
  ∀ s : State, s.run = .busy →
    (∀ k, k ≤ s.seq.length →
      ∃ u, runSteps k s = .next u ∧ u.run = .busy ∧ u.resp = s.resp ∧ u.seq = s.seq.drop k) ∧
    ∃ t, runSteps (s.seq.length + 1) s = .next t ∧ t.run = .idle ∧ t.seq = [] ∧ t.phase = .ready ∧
      t.resp = s.resp ++ [.ok] ∧ t.trace = s.trace ++ seqEvents s.cfg s.source s.draws s.seq ∧
      t.pin = replayFrom s.pin (seqEvents s.cfg s.source s.draws s.seq) ∧ t.cfg = s.cfg ∧ t.port = s.port

/-- R153, R242: an INIT whose pin set resolves, from any state of the invariant, ends READY, with its lines bound,
exactly the four init frames latched and the levels R242 gives. The port is the model's choice,
notes/assumptions/1.md. -/
def Obligations.InitEndsReadyWithFourFramesOnThePins : Prop :=
  ∀ (board : BoardKind) (socket : SocketId) (bl : Level) (p : Pins) (rest : List Nat) (s : State),
    s.Inv → s.FramesAligned → s.run = .idle → s.phase = .uninit →
    s.port = encode (.init board socket bl) ++ rest → resolvePins s.cfg board socket = .ok p →
    ∃ n t, runSteps n s = .next t ∧ t.run = .idle ∧ t.phase = .ready ∧ t.bound = some p ∧
      t.pin = { rs := .level false, d7 := .level false, d6 := .level false, d5 := .level false,
                d4 := .level true, e := .level false, bl := .level bl } ∧
      t.frames = s.frames ++ [(false, 0x33), (false, 0x32), (false, 0x0C), (false, 0x01)] ∧
      t.resp = s.resp ++ [.ok] ∧ t.port = rest

/-- R65, R66, R152: the frames an accepted request plans appear on the pins, in plan order and nothing else, before
its OK. The port is the model's choice, notes/assumptions/1.md. -/
def Obligations.PlannedFramesAppearOnThePins : Prop :=
  ∀ (i : Instr) (fs : List (Level × Byte)) (rest : List Nat) (s : State),
    s.Inv → s.FramesAligned → s.run = .idle → s.port = encode i ++ rest → i.isRequest = true →
    exec i { s with port := rest } = .next { s with port := rest, run := .busy, seq := frames s.cfg fs } →
    ∃ t, runSteps ((frames s.cfg fs).length + 2) s = .next t ∧ t.run = .idle ∧ t.frames = s.frames ++ fs ∧
      t.resp = s.resp ++ [.ok] ∧ t.phase = .ready ∧ t.bound = s.bound ∧ t.port = rest

/-- The source's first testable property (spec/95_test_vectors.md S1), on the pins. The port is the model's choice,
notes/assumptions/1.md. -/
def Obligations.SetCursorCommandAppearsOnThePins : Prop :=
  ∀ (column row : Int) (rest : List Nat) (s : State),
    s.Inv → s.FramesAligned → s.run = .idle → s.phase = .ready →
    s.port = encode (.setCursor column row) ++ rest → 0 ≤ column → column < 40 → row = 0 ∨ row = 1 →
    ∃ n t, runSteps n s = .next t ∧ t.run = .idle ∧ t.resp = s.resp ++ [.ok] ∧
      t.frames = s.frames ++ [(false, 0x80#8 ||| BitVec.ofInt 8 (if row = 0 then column else 64 + column))]

/-- R183 on the pins: n characters are n data frames, in order, with no bounds check. The port is the model's choice,
notes/assumptions/1.md. -/
def Obligations.WriteStringAppearsOnThePins : Prop :=
  ∀ (text : Text) (rest : List Nat) (s : State),
    s.Inv → s.FramesAligned → s.run = .idle → s.phase = .ready →
    s.port = encode (.writeString text) ++ rest → (∀ code ∈ text, code ≤ 0xFF) →
    ∃ n t, runSteps n s = .next t ∧ t.run = .idle ∧ t.resp = s.resp ++ [.ok] ∧
      t.frames = s.frames ++ text.map fun code => (true, BitVec.ofNat 8 code)

/-- R161. The port is the model's choice, notes/assumptions/1.md. -/
def Obligations.TwoClearsAreIdempotent : Prop :=
  ∀ (rest : List Nat) (s : State), s.Inv → s.FramesAligned → s.run = .idle → s.phase = .ready →
    s.port = encode .clear ++ encode .clear ++ rest →
    ∃ n m t u, runSteps n s = .next t ∧ runSteps m t = .next u ∧ t.run = .idle ∧ u.run = .idle ∧
      t.frames = s.frames ++ [(false, 0x01)] ∧ u.frames = s.frames ++ [(false, 0x01), (false, 0x01)] ∧
      u.phase = t.phase ∧ u.bound = t.bound ∧ u.pin = t.pin

/-! ### Invariants (spec/10_state.md section 6) -/

/-- Reset meets the invariants, under every configuration. -/
def Obligations.ResetMeetsTheInvariants : Prop :=
  ∀ c : Config, (State.resetWith c).Inv ∧ (State.resetWith c).FramesAligned ∧ (State.resetWith c).LinesDistinct

/-- R21, R22, R24, R26, R34, R100, R103, R106: every step keeps the invariant. -/
def Obligations.EveryStepKeepsTheInvariant : Prop :=
  ∀ s t : State, s.Inv → step s = .next t → t.Inv

/-- R35, R59: every step keeps the latched and pending nibbles whole frames with one RS level each. -/
def Obligations.EveryStepKeepsFramesWhole : Prop :=
  ∀ s t : State, s.Inv → s.FramesAligned → step s = .next t → t.FramesAligned

/-- R14, R22, R244: with a PIN_TABLE of distinct handles, the seven lines bound are distinct, and every
micro-operation the sequencer is given is well-formed; every step keeps this. -/
def Obligations.EveryStepKeepsBoundLinesDistinct : Prop :=
  ∀ s t : State, s.LinesDistinct → step s = .next t → t.LinesDistinct

/-- R36: after the BIND of an accepted INIT, BACKLIGHT is INIT's operand for the rest of the run. -/
def Obligations.BacklightIsInitsOperandEverAfter : Prop :=
  ∀ (n : Nat) (board : BoardKind) (socket : SocketId) (bl : Level) (s u t : State),
    s.Inv → s.run = .idle → exec (.init board socket bl) s = .next u → u.run = .busy →
    runSteps (n + 1) u = .next t → t.pin.bl = .level bl

/-- R22, R24: READY is never left and is entered only by completing a request with OK; a binding never changes. -/
def Obligations.PhaseAndBindingAreWrittenOnce : Prop :=
  ∀ s t : State, s.Inv → step s = .next t →
    (s.phase = .ready → t.phase = .ready) ∧
    (s.phase = .uninit → t.phase = .ready → s.run = .busy ∧ s.seq = [] ∧ t.resp = s.resp ++ [.ok]) ∧
    (∀ p, s.bound = some p → t.bound = some p)

/-- R27, R28, R65: the trace and the responses only grow at their end, and requests leave the port only at its front;
the configuration and the source of draws never change. The port, cfg and source are the model's own fields,
notes/assumptions/1.md, 4.md and 25.md. -/
def Obligations.TraceAndResponsesOnlyGrow : Prop :=
  ∀ s t : State, step s = .next t →
    s.trace <+: t.trace ∧ s.resp <+: t.resp ∧ t.port <:+ s.port ∧ t.cfg = s.cfg ∧ t.source = s.source

/-- R216, R218: no step of a block that is not BUSY touches a pin, the trace, the binding or the phase, so an error, a
fault and an acceptance emit no pin event. -/
def Obligations.PinsChangeOnlyWhileBusy : Prop :=
  ∀ s t : State, s.run ≠ .busy → step s = .next t →
    t.pin = s.pin ∧ t.trace = s.trace ∧ t.bound = s.bound ∧ t.phase = s.phase ∧ t.draws = s.draws ∧
    t.source = s.source

/-- R68, R104: two blocks that differ only in their draws, past and to come, and so in the durations of their HOLD
events, make the same step but for those. The counter `draws` and the `source` are the model's own, notes/assumptions/7.md
and 25.md. -/
def Obligations.DwellsChangeNothingButHoldDurations : Prop :=
  ∀ s s' t : State, s'.timeless = s.timeless → step s = .next t →
    ∃ t', step s' = .next t' ∧ t'.timeless = t.timeless

/-- R253: a plan of n frames takes at least 2n ms on the pins, and INIT at least 8 ms, for every draw of the dwells
and gaps. The microsecond and the form of the gaps are the model's choice, notes/assumptions/6.md and 8.md. -/
def Obligations.FramesTakeAtLeastTwoMillisecondsEach : Prop :=
  ∀ (c : Config) (source n k : Nat) (clk : Clock),
    (∀ fs : List (Level × Byte),
      2000 * fs.length ≤ span (timeline c source k clk (seqEvents c source n (frames c fs)))) ∧
    ∀ (bl : Level) (p : Pins),
      8000 ≤ span (timeline c source k clk (seqEvents c source n (.bind bl p :: frames c initBytes)))

/-- R9, R105: for every draw of the gaps, an event starts after every earlier one has ended, a LEVELS at least T_HOLD_MIN
after every earlier E_FALL, and an E_RISE at least T_SETUP_MIN after every earlier LEVELS and T_E_LOW_MIN after every
earlier E_FALL. The form of the gaps is the model's choice, notes/assumptions/8.md. -/
def Obligations.EventTimesKeepTheMinima : Prop :=
  ∀ (c : Config) (source k : Nat) (clk : Clock) (evs : List PinEvent)
    (pre mid post : List (Nat × PinEvent)) (t u : Nat) (ev ev' : PinEvent),
    timeline c source k clk evs = pre ++ (t, ev) :: mid ++ (u, ev') :: post →
    t + ev.duration ≤ u ∧
    (ev = .eFall → ∀ rs d7 d6 d5 d4, ev' = .levels rs d7 d6 d5 d4 → t + c.tHoldMin ≤ u) ∧
    (∀ rs d7 d6 d5 d4, ev = .levels rs d7 d6 d5 d4 → ev' = .eRise → t + c.tSetupMin ≤ u) ∧
    (ev = .eFall → ev' = .eRise → t + c.tELowMin ≤ u)

/-- R246: the time of the first E_RISE is a fact of the run, which no later step changes; and the premise on it puts
every E_RISE of the run at least T_POWER_SETTLE = 40 ms after power-on. That times count from reset at `start`, in
microseconds, is the model's form, notes/assumptions/6.md and 8.md. -/
def Obligations.PowerOnPremiseCoversEveryStrobe : Prop :=
  (∀ (n start first : Nat) (s t : State), runSteps n s = .next t → s.firstRise start = some first →
    t.firstRise start = some first) ∧
  ∀ (powerOn start u : Nat) (s : State), PowerOnSettled powerOn start s →
    (u, PinEvent.eRise) ∈ s.timeline start → powerOn + 40000 ≤ u

/-! ### Encoding -/

/-- Decoding what `encode` gives is the instruction again, with the words after it left: every instruction, every
operand. The operand words are the model's layout, notes/assumptions/2.md and 12.md. -/
def Obligations.DecodeInvertsEncode : Prop :=
  ∀ (i : Instr) (rest : List Nat), decode i.format (encode i ++ rest) = .ok (i, rest)

/-- Words that decode are the encoding of what they decode to: no two spellings of one instruction. The operand words
are the model's layout, notes/assumptions/2.md and 12.md. -/
def Obligations.EncodeInvertsDecode : Prop :=
  ∀ (fmt : Format) (ws rest : List Nat) (i : Instr),
    decode fmt ws = .ok (i, rest) → i.format = fmt ∧ ws = encode i ++ rest

/-- Words written out from R72 and R80 (the operand words are the model's layout, notes/assumptions/2.md). -/
def Obligations.WrittenWordsDecode : Prop :=
  decode .request [0x1, 7, 9, 1] = .ok (.init 7 9 true, []) ∧
  decode .request [0x2, 0x0C] = .ok (.sendCmd 0x0C, []) ∧
  decode .request [0x4, 4, 0x30, 0x78, 0x33, 0x33] = .ok (.sendEnc [0x30, 0x78, 0x33, 0x33], []) ∧
  decode .request [0x6] = .ok (.clear, []) ∧
  decode .request [0x7, 10, 1] = .ok (.setCursor 5 (-1), []) ∧
  decode .request [0xB, 6] = .ok (.drawGlyph 3, []) ∧
  decode .micro [0b011100] = .ok (.setLevels true true true false false, []) ∧
  decode .micro [0b100000] = .ok (.latch, []) ∧
  decode .micro [0b110000, 1, 0x41] = .ok (.settle true 0x41, []) ∧
  decode .micro [0b111001, 0, 1, 2, 3, 4, 5, 6] = .ok (.bind true ⟨0, 1, 2, 3, 4, 5, 6⟩, [])

/-! ### Reset and several blocks -/

/-- R39. -/
def Obligations.ResetIsTheSpecsReset : Prop :=
  ∀ c : Config,
    (∀ g : Signal, (State.resetWith c).pin.get g = .unbound) ∧ (State.resetWith c).bound = none ∧
    (State.resetWith c).phase = .uninit ∧ (State.resetWith c).run = .idle ∧ (State.resetWith c).seq = [] ∧
    (State.resetWith c).trace = [] ∧ (State.resetWith c).resp = [] ∧ ∃ c', State.reset = State.resetWith c'

/-- R68, R229: blocks share nothing and no order between them matters: a step of one leaves every other as it was and
draws from that block's own source, and two steps of different blocks that one order allows, the other order allows too,
to the same system. The System and the sources are the model's form of several blocks, notes/assumptions/18.md and
25.md. -/
def Obligations.BlocksAreIndependent : Prop :=
  ∀ (sys a : System) (j k : Nat), j ≠ k → sys.stepBlock j = .next a →
    a.blocks[k]? = sys.blocks[k]? ∧ (∃ t, a.blocks[j]? = some t ∧ t.source = j) ∧
    ∀ ab : System, (∀ s ∈ sys.blocks, s.Inv) → a.stepBlock k = .next ab →
      ∃ b, sys.stepBlock k = .next b ∧ b.stepBlock j = .next ab

/-- R250: a step that leaves two blocks with a physical line in common has no run. That the refusal comes at the step
that binds, and that block k draws from source k, is the model's choice, notes/assumptions/18.md and 25.md. -/
def Obligations.SharedLinesAreRefused : Prop :=
  ∀ (sys : System) (j k : Nat) (s t u : State) (p q : Pins) (h : Handle), j ≠ k →
    sys.blocks[k]? = some s → step { s with source := k } = .next t → t.bound = some p →
    sys.blocks[j]? = some u → u.bound = some q → h ∈ p.toList → h ∈ q.toList →
    sys.stepBlock k = .refused .sharedLine
end

