-- ==== Sys2Proof/Laws/State.lean ====
section
/-! SUPPORT. The fields of the state after each shared update. -/

namespace Sys2Proof.Machine

section Emit
variable (ev : PinEvent) (s : State)
@[simp] theorem emit_pin : (emit ev s).pin = applyEvent s.pin ev := rfl
@[simp] theorem emit_bound : (emit ev s).bound = s.bound := rfl
@[simp] theorem emit_phase : (emit ev s).phase = s.phase := rfl
@[simp] theorem emit_run : (emit ev s).run = s.run := rfl
@[simp] theorem emit_seq : (emit ev s).seq = s.seq := rfl
@[simp] theorem emit_trace : (emit ev s).trace = s.trace ++ [ev] := rfl
@[simp] theorem emit_resp : (emit ev s).resp = s.resp := rfl
@[simp] theorem emit_cfg : (emit ev s).cfg = s.cfg := rfl
@[simp] theorem emit_port : (emit ev s).port = s.port := rfl
@[simp] theorem emit_draws : (emit ev s).draws = s.draws := rfl
@[simp] theorem emit_source : (emit ev s).source = s.source := rfl
end Emit

section RaiseError
variable (k : ErrorKind) (s : State)
@[simp] theorem raiseError_pin : (raiseError k s).pin = s.pin := rfl
@[simp] theorem raiseError_bound : (raiseError k s).bound = s.bound := rfl
@[simp] theorem raiseError_phase : (raiseError k s).phase = s.phase := rfl
@[simp] theorem raiseError_seq : (raiseError k s).seq = s.seq := rfl
@[simp] theorem raiseError_trace : (raiseError k s).trace = s.trace := rfl
@[simp] theorem raiseError_resp : (raiseError k s).resp = s.resp ++ [.err k] := rfl
@[simp] theorem raiseError_cfg : (raiseError k s).cfg = s.cfg := rfl
@[simp] theorem raiseError_port : (raiseError k s).port = s.port := rfl
@[simp] theorem raiseError_draws : (raiseError k s).draws = s.draws := rfl
@[simp] theorem raiseError_source : (raiseError k s).source = s.source := rfl

theorem raiseError_run_report (h : s.cfg.errorPolicy = .report) : (raiseError k s).run = .idle := by
  simp [raiseError, h]

theorem raiseError_run_halt (h : s.cfg.errorPolicy = .halt) : (raiseError k s).run = .halted k := by
  simp [raiseError, h]

theorem raiseError_not_busy : (raiseError k s).run ≠ .busy := by
  cases h : s.cfg.errorPolicy <;> simp [raiseError, h]

theorem raiseError_not_faulted (f : Fault) : (raiseError k s).run ≠ .faulted f := by
  cases h : s.cfg.errorPolicy <;> simp [raiseError, h]
end RaiseError

section RecordFault
variable (f : Fault) (s : State)
@[simp] theorem recordFault_pin : (recordFault f s).pin = s.pin := rfl
@[simp] theorem recordFault_bound : (recordFault f s).bound = s.bound := rfl
@[simp] theorem recordFault_phase : (recordFault f s).phase = s.phase := rfl
@[simp] theorem recordFault_run : (recordFault f s).run = .faulted f := rfl
@[simp] theorem recordFault_seq : (recordFault f s).seq = s.seq := rfl
@[simp] theorem recordFault_trace : (recordFault f s).trace = s.trace := rfl
@[simp] theorem recordFault_resp : (recordFault f s).resp = s.resp := rfl
@[simp] theorem recordFault_cfg : (recordFault f s).cfg = s.cfg := rfl
@[simp] theorem recordFault_port : (recordFault f s).port = s.port := rfl
@[simp] theorem recordFault_draws : (recordFault f s).draws = s.draws := rfl
@[simp] theorem recordFault_source : (recordFault f s).source = s.source := rfl
end RecordFault

section LoadPlan
variable (ops : List MicroOp) (s : State)
@[simp] theorem loadPlan_pin : (loadPlan ops s).pin = s.pin := rfl
@[simp] theorem loadPlan_bound : (loadPlan ops s).bound = s.bound := rfl
@[simp] theorem loadPlan_phase : (loadPlan ops s).phase = s.phase := rfl
@[simp] theorem loadPlan_run : (loadPlan ops s).run = .busy := rfl
@[simp] theorem loadPlan_seq : (loadPlan ops s).seq = ops := rfl
@[simp] theorem loadPlan_trace : (loadPlan ops s).trace = s.trace := rfl
@[simp] theorem loadPlan_resp : (loadPlan ops s).resp = s.resp := rfl
@[simp] theorem loadPlan_cfg : (loadPlan ops s).cfg = s.cfg := rfl
@[simp] theorem loadPlan_port : (loadPlan ops s).port = s.port := rfl
@[simp] theorem loadPlan_draws : (loadPlan ops s).draws = s.draws := rfl
@[simp] theorem loadPlan_source : (loadPlan ops s).source = s.source := rfl
end LoadPlan

section Complete
variable (s : State)
@[simp] theorem complete_pin : (complete s).pin = s.pin := rfl
@[simp] theorem complete_bound : (complete s).bound = s.bound := rfl
@[simp] theorem complete_phase : (complete s).phase = .ready := rfl
@[simp] theorem complete_run : (complete s).run = .idle := rfl
@[simp] theorem complete_seq : (complete s).seq = s.seq := rfl
@[simp] theorem complete_trace : (complete s).trace = s.trace := rfl
@[simp] theorem complete_resp : (complete s).resp = s.resp ++ [.ok] := rfl
@[simp] theorem complete_cfg : (complete s).cfg = s.cfg := rfl
@[simp] theorem complete_port : (complete s).port = s.port := rfl
@[simp] theorem complete_draws : (complete s).draws = s.draws := rfl
@[simp] theorem complete_source : (complete s).source = s.source := rfl
end Complete

section Strobe
variable (s : State)
@[simp] theorem strobe_pin : (strobe s).pin = { s.pin with e := .level false } := rfl
@[simp] theorem strobe_bound : (strobe s).bound = s.bound := rfl
@[simp] theorem strobe_phase : (strobe s).phase = s.phase := rfl
@[simp] theorem strobe_run : (strobe s).run = s.run := rfl
@[simp] theorem strobe_seq : (strobe s).seq = s.seq := rfl
@[simp] theorem strobe_trace : (strobe s).trace = s.trace ++ [.eRise, .hold (dwell s.source s.draws), .eFall] := by
  simp [strobe]
@[simp] theorem strobe_resp : (strobe s).resp = s.resp := rfl
@[simp] theorem strobe_cfg : (strobe s).cfg = s.cfg := rfl
@[simp] theorem strobe_port : (strobe s).port = s.port := rfl
@[simp] theorem strobe_draws : (strobe s).draws = s.draws + 1 := rfl
@[simp] theorem strobe_source : (strobe s).source = s.source := rfl
end Strobe

section Issue
variable (i : Instr) (s : State)
@[simp] theorem issue_port : (s.issue i).port = s.port ++ encode i := rfl
@[simp] theorem issue_run : (s.issue i).run = s.run := rfl
@[simp] theorem issue_phase : (s.issue i).phase = s.phase := rfl
@[simp] theorem issue_pin : (s.issue i).pin = s.pin := rfl
@[simp] theorem issue_trace : (s.issue i).trace = s.trace := rfl
@[simp] theorem issue_resp : (s.issue i).resp = s.resp := rfl
@[simp] theorem issue_cfg : (s.issue i).cfg = s.cfg := rfl
@[simp] theorem issue_source : (s.issue i).source = s.source := rfl
end Issue

section Reset
variable (c : Config)
@[simp] theorem resetWith_pin : (State.resetWith c).pin = PinLevels.undriven := rfl
@[simp] theorem resetWith_bound : (State.resetWith c).bound = none := rfl
@[simp] theorem resetWith_phase : (State.resetWith c).phase = .uninit := rfl
@[simp] theorem resetWith_run : (State.resetWith c).run = .idle := rfl
@[simp] theorem resetWith_seq : (State.resetWith c).seq = [] := rfl
@[simp] theorem resetWith_trace : (State.resetWith c).trace = [] := rfl
@[simp] theorem resetWith_resp : (State.resetWith c).resp = [] := rfl
@[simp] theorem resetWith_cfg : (State.resetWith c).cfg = c := rfl
@[simp] theorem resetWith_port : (State.resetWith c).port = [] := rfl
@[simp] theorem resetWith_draws : (State.resetWith c).draws = 0 := rfl
@[simp] theorem resetWith_source : (State.resetWith c).source = 0 := rfl
end Reset

section Timeless
variable (s : State)
@[simp] theorem timeless_pin : s.timeless.pin = s.pin := rfl
@[simp] theorem timeless_bound : s.timeless.bound = s.bound := rfl
@[simp] theorem timeless_phase : s.timeless.phase = s.phase := rfl
@[simp] theorem timeless_run : s.timeless.run = s.run := rfl
@[simp] theorem timeless_seq : s.timeless.seq = s.seq := rfl
@[simp] theorem timeless_resp : s.timeless.resp = s.resp := rfl
@[simp] theorem timeless_cfg : s.timeless.cfg = s.cfg := rfl
@[simp] theorem timeless_port : s.timeless.port = s.port := rfl
@[simp] theorem timeless_trace : s.timeless.trace = s.trace.map PinEvent.untimed := rfl
@[simp] theorem timeless_draws : s.timeless.draws = 0 := rfl
@[simp] theorem timeless_source : s.timeless.source = 0 := rfl
end Timeless

@[simp] theorem get_undriven (g : Signal) : PinLevels.undriven.get g = .unbound := by cases g <;> rfl

/-- An event leaves BACKLIGHT alone unless it is BIND (R23, R36). -/
theorem applyEvent_bl (p : PinLevels) (ev : PinEvent) (h : ∀ bl, ev ≠ .bind bl) :
    (applyEvent p ev).bl = p.bl := by
  cases ev <;> simp [applyEvent] at h ⊢

end Sys2Proof.Machine
end

