-- ==== Sys2Proof/Laws/Ops.lean ====
section
/-! SUPPORT. What each shared operation can do, said once; later proofs cite these instead of unfolding. -/

namespace Sys2Proof.Machine

/-! ### The request cycle -/

/-- Everything `acceptRequest` can answer as a next state. -/
theorem acceptRequest_next {w : Phase} {f : Fault} {planned : Except ErrorKind (List MicroOp)} {s t : State}
    (h : acceptRequest w f planned s = .next t) :
    (s.run = .idle ∧ s.phase ≠ w ∧ t = recordFault f s) ∨
    (s.run = .idle ∧ s.phase = w ∧ ∃ k, planned = .error k ∧ t = raiseError k s) ∨
    (s.run = .idle ∧ s.phase = w ∧ ∃ ops, planned = .ok ops ∧ t = loadPlan ops s) ∨
    ((s.run = .busy ∨ ∃ k, s.run = .halted k) ∧ t = s) := by
  unfold acceptRequest at h
  split at h
  next hr =>
    split at h
    next hp =>
      split at h
      next k => cases h; exact .inr (.inl ⟨hr, hp, k, rfl, rfl⟩)
      next ops => cases h; exact .inr (.inr (.inl ⟨hr, hp, ops, rfl, rfl⟩))
    next hp => cases h; exact .inl ⟨hr, hp, rfl⟩
  next hr => cases h; exact .inr (.inr (.inr ⟨.inl hr, rfl⟩))
  next k hr => cases h; exact .inr (.inr (.inr ⟨.inr ⟨k, hr⟩, rfl⟩))
  next => cases h

theorem acceptRequest_ok {w : Phase} {f : Fault} {ops : List MicroOp} {s : State}
    (hr : s.run = .idle) (hp : s.phase = w) :
    acceptRequest w f (.ok ops) s = .next (loadPlan ops s) := by
  simp [acceptRequest, hr, hp]

theorem acceptRequest_error {w : Phase} {f : Fault} {k : ErrorKind} {s : State}
    (hr : s.run = .idle) (hp : s.phase = w) :
    acceptRequest w f (.error k) s = .next (raiseError k s) := by
  simp [acceptRequest, hr, hp]

theorem acceptRequest_wrong_phase {w : Phase} {f : Fault} {planned : Except ErrorKind (List MicroOp)} {s : State}
    (hr : s.run = .idle) (hp : s.phase ≠ w) :
    acceptRequest w f planned s = .next (recordFault f s) := by
  simp [acceptRequest, hr, hp]

/-- The `validate` and `plan` of a request under a configuration (R150); a micro-operation plans nothing. -/
def requestPlan (c : Config) : Instr → Except ErrorKind (List MicroOp)
  | .init board socket bl => planInit board socket bl c
  | .sendCmd b => .ok (frame c false b)
  | .sendData b => .ok (frame c true b)
  | .sendEnc text => planSendEnc text c
  | .sendRaw bits => planSendRaw bits c
  | .clear => .ok (frame c false 0x01)
  | .setCursor column row => planSetCursor column row c
  | .writeChar code => planWriteChar code c
  | .writeString text => planWriteString text c
  | .defineGlyph slot rows => planDefineGlyph slot rows c
  | .drawGlyph slot => planDrawGlyph slot c
  | .setLevels _ _ _ _ _ => .ok []
  | .latch => .ok []
  | .settle _ _ => .ok []
  | .bind _ _ => .ok []

/-- INIT is accepted through `acceptInit`. -/
theorem exec_init_eq (i : Instr) (s : State) (h : i.isInit = true) :
    exec i s = acceptInit (requestPlan s.cfg i) s := by
  cases i <;> first | rfl | simp [Instr.isInit] at h

/-- Every other request is accepted through `acceptReady`. -/
theorem exec_ready_eq (i : Instr) (s : State) (hq : i.isRequest = true) (h : i.isInit = false) :
    exec i s = acceptReady (requestPlan s.cfg i) s := by
  cases i <;> first | rfl | simp [Instr.isRequest, Instr.isInit] at hq h

/-- Everything a request's meaning can answer as a next state. -/
theorem exec_request_next {i : Instr} {s t : State} (hq : i.isRequest = true) (h : exec i s = .next t) :
    (s.run = .idle ∧ ((i.isInit = true ∧ s.phase ≠ .uninit ∧ t = recordFault .alreadyInitialized s) ∨
        (i.isInit = false ∧ s.phase ≠ .ready ∧ t = recordFault .notReady s))) ∨
    (s.run = .idle ∧ ∃ k, requestPlan s.cfg i = .error k ∧ t = raiseError k s) ∨
    (s.run = .idle ∧ (i.isInit = true → s.phase = .uninit) ∧ (i.isInit = false → s.phase = .ready) ∧
      ∃ ops, requestPlan s.cfg i = .ok ops ∧ t = loadPlan ops s) ∨
    ((s.run = .busy ∨ ∃ k, s.run = .halted k) ∧ t = s) := by
  cases hi : i.isInit with
  | true =>
    rw [exec_init_eq i s hi] at h
    rcases acceptRequest_next h with ⟨hr, hp, rfl⟩ | ⟨hr, hp, k, hk, rfl⟩ | ⟨hr, hp, ops, hk, rfl⟩ | ⟨hr, rfl⟩
    · exact .inl ⟨hr, .inl ⟨rfl, hp, rfl⟩⟩
    · exact .inr (.inl ⟨hr, k, hk, rfl⟩)
    · exact .inr (.inr (.inl ⟨hr, fun _ => hp, by simp, ops, hk, rfl⟩))
    · exact .inr (.inr (.inr ⟨hr, rfl⟩))
  | false =>
    rw [exec_ready_eq i s hq hi] at h
    rcases acceptRequest_next h with ⟨hr, hp, rfl⟩ | ⟨hr, hp, k, hk, rfl⟩ | ⟨hr, hp, ops, hk, rfl⟩ | ⟨hr, rfl⟩
    · exact .inl ⟨hr, .inr ⟨rfl, hp, rfl⟩⟩
    · exact .inr (.inl ⟨hr, k, hk, rfl⟩)
    · exact .inr (.inr (.inl ⟨hr, by simp, fun _ => hp, ops, hk, rfl⟩))
    · exact .inr (.inr (.inr ⟨hr, rfl⟩))

/-! ### Plans are frames -/

@[simp] theorem frames_nil (c : Config) : frames c [] = [] := rfl

@[simp] theorem frames_cons (c : Config) (f : Level × Byte) (fs : List (Level × Byte)) :
    frames c (f :: fs) = frame c f.1 f.2 ++ frames c fs := rfl

theorem frames_singleton (c : Config) (rs : Level) (b : Byte) : frames c [(rs, b)] = frame c rs b := by
  simp

theorem frame_no_bind (c : Config) (rs : Level) (b : Byte) : ∀ m ∈ frame c rs b, m.isBind = false := by
  intro m hm
  unfold frame at hm
  split at hm <;> simp at hm <;> rcases hm with rfl | rfl | rfl | rfl | rfl <;> rfl

theorem frames_no_bind (c : Config) (fs : List (Level × Byte)) : ∀ m ∈ frames c fs, m.isBind = false := by
  intro m hm
  simp only [frames, List.mem_flatMap] at hm
  obtain ⟨f, -, hm⟩ := hm
  exact frame_no_bind c f.1 f.2 m hm

/-- A request whose operands are valid plans whole frames; INIT plans BIND first. -/
theorem requestPlan_ok {c : Config} {i : Instr} {ops : List MicroOp} (hq : i.isRequest = true)
    (h : requestPlan c i = .ok ops) :
    (i.isInit = true ∧ ∃ bl p, ops = .bind bl p :: frames c initBytes) ∨
    (i.isInit = false ∧ ∃ fs, ops = frames c fs) := by
  have raw : ∀ bits, planSendRaw bits c = .ok ops → ∃ fs, ops = frames c fs := by
    intro bits hb
    unfold planSendRaw at hb
    cases hd : decodeRawFrame bits with
    | error k => simp [hd, bind, Except.bind] at hb
    | ok r => simp [hd, bind, Except.bind] at hb; exact ⟨[_], by rw [frames_singleton]; exact hb.symm⟩
  have enc : ∀ text, planSendEnc text c = .ok ops → ∃ fs, ops = frames c fs := by
    intro text hb
    unfold planSendEnc at hb
    cases hd : decodeRoutingText text with
    | error k => simp [hd, bind, Except.bind] at hb
    | ok r => simp [hd, bind, Except.bind] at hb; exact ⟨[_], by rw [frames_singleton]; exact hb.symm⟩
  cases i with
  | init board socket bl =>
    left
    simp only [requestPlan, planInit] at h
    cases hr : resolvePins c board socket with
    | error k => simp [hr, bind, Except.bind] at h
    | ok p => simp [hr, bind, Except.bind] at h; exact ⟨rfl, bl, p, h.symm⟩
  | sendCmd b => cases h; exact .inr ⟨rfl, [_], (frames_singleton ..).symm⟩
  | sendData b => cases h; exact .inr ⟨rfl, [_], (frames_singleton ..).symm⟩
  | sendEnc text => exact .inr ⟨rfl, enc text h⟩
  | sendRaw bits => exact .inr ⟨rfl, raw bits h⟩
  | clear => cases h; exact .inr ⟨rfl, [_], (frames_singleton ..).symm⟩
  | setCursor column row =>
    simp only [requestPlan, planSetCursor] at h
    cases hr : cursorAddress column row with
    | error k => simp [hr, bind, Except.bind] at h
    | ok a => exact .inr ⟨rfl, raw _ (by simpa [hr, bind, Except.bind] using h)⟩
  | writeChar code =>
    simp only [requestPlan, planWriteChar] at h
    split at h
    · cases h
    · exact .inr ⟨rfl, enc _ h⟩
  | writeString text =>
    simp only [requestPlan, planWriteString] at h
    split at h
    · cases h
    · cases h; exact .inr ⟨rfl, _, rfl⟩
  | defineGlyph slot rows =>
    simp only [requestPlan, planDefineGlyph] at h
    cases hr : cgramCommand slot with
    | error k => simp [hr, bind, Except.bind] at h
    | ok cmd =>
      simp only [hr, bind, Except.bind] at h
      split at h
      · cases hv : rowBytes c.acceptShortRows rows with
        | error k => simp [hv] at h
        | ok vs => simp only [hv] at h; cases h; exact .inr ⟨rfl, _, rfl⟩
      · cases h
  | drawGlyph slot =>
    simp only [requestPlan, planDrawGlyph] at h
    cases hr : glyphDrawByte slot with
    | error k => simp [hr, bind, Except.bind] at h
    | ok b => simp [hr, bind, Except.bind] at h; exact .inr ⟨rfl, [_], by rw [frames_singleton]; exact h.symm⟩
  | setLevels _ _ _ _ _ => cases hq
  | latch => cases hq
  | settle _ _ => cases hq
  | bind _ _ => cases hq

/-! ### Micro-operations -/

/-- The pin set after a micro-operation: only BIND writes it (R22). -/
def boundAfter (old : Option Pins) : MicroOp → Option Pins
  | .setLevels _ _ _ _ _ => old
  | .latch => old
  | .settle _ _ => old
  | .bind _ p => some p

/-- The state after the head micro-operation of `seq`, its events appended and its pins changed by them. -/
def microResult (m : MicroOp) (rest : List MicroOp) (s : State) : State :=
  { s with
    pin := replayFrom s.pin (microEvents s.cfg s.source s.draws m)
    bound := boundAfter s.bound m
    seq := rest
    trace := s.trace ++ microEvents s.cfg s.source s.draws m
    draws := s.draws + microDraws m }

theorem performMicro_head {m : MicroOp} {rest : List MicroOp} {effect : State → State} {s : State}
    (hr : s.run = .busy) (hs : s.seq = m :: rest) :
    performMicro m effect s = .next (effect { s with seq := rest }) := by
  simp [performMicro, hr, hs]

theorem performMicro_next {m : MicroOp} {effect : State → State} {s t : State}
    (h : performMicro m effect s = .next t) :
    s.run = .busy ∧ ∃ rest, s.seq = m :: rest ∧ t = effect { s with seq := rest } := by
  unfold performMicro at h
  split at h
  next hc =>
    obtain ⟨hr, hh⟩ := hc
    cases hs : s.seq with
    | nil => simp [hs] at hh
    | cons a rest =>
      simp only [hs, List.head?_cons, Option.some.injEq, List.tail_cons] at hh h
      cases h
      exact ⟨hr, rest, by rw [hh], rfl⟩
  next => cases h

/-- The head micro-operation of a BUSY block performs its events and nothing else. -/
theorem exec_micro_head {m : MicroOp} {rest : List MicroOp} {s : State}
    (hr : s.run = .busy) (hs : s.seq = m :: rest) :
    exec m.toInstr s = .next (microResult m rest s) := by
  cases m with
  | setLevels rs d7 d6 d5 d4 =>
    exact performMicro_head (effect := emit (.levels rs d7 d6 d5 d4)) hr hs
  | latch =>
    refine (performMicro_head (effect := strobe) hr hs).trans ?_
    simp [strobe, emit, microResult, replayFrom, microEvents, microDraws, boundAfter]
  | settle rs b =>
    refine (performMicro_head (effect := settleWait rs b) hr hs).trans ?_
    by_cases hd : 0 < settleTime s.cfg rs b <;>
      simp [hd, settleWait, emit, microResult, replayFrom, microEvents, microDraws, boundAfter, applyEvent]
  | bind bl p =>
    exact performMicro_head (effect := takeLines bl p) hr hs

/-! ### Steps -/

/-- Everything a step can do when it answers a next state. -/
theorem step_next {s t : State} (h : step s = .next t) :
    ((∃ k, s.run = .halted k) ∧ t = s) ∨
    (s.run = .busy ∧ s.seq = [] ∧ t = complete s) ∨
    (∃ m rest, s.run = .busy ∧ s.seq = m :: rest ∧ t = microResult m rest s) ∨
    (s.run = .idle ∧ fetch s = .nothing ∧ t = s) ∨
    (∃ i rest, s.run = .idle ∧ fetch s = .request i rest ∧ exec i { s with port := rest } = .next t) ∨
    (s.run = .idle ∧ fetch s = .malformed .reservedOpcode ∧ t = recordFault .illegalRequest s) := by
  unfold step at h
  split at h
  next => cases h
  next k hk => cases h; exact .inl ⟨⟨k, hk⟩, rfl⟩
  next hr =>
    split at h
    next hs => cases h; exact .inr (.inl ⟨hr, hs, rfl⟩)
    next m rest hs =>
      rw [exec_micro_head hr hs] at h
      cases h
      exact .inr (.inr (.inl ⟨m, rest, hr, hs, rfl⟩))
  next hr =>
    split at h
    next hf => cases h; exact .inr (.inr (.inr (.inl ⟨hr, hf, rfl⟩)))
    next i rest hf => exact .inr (.inr (.inr (.inr (.inl ⟨i, rest, hr, hf, h⟩))))
    next e hf =>
      cases e with
      | reservedOpcode => cases h; exact .inr (.inr (.inr (.inr (.inr ⟨hr, hf, rfl⟩))))
      | reservedMicro => cases h
      | wideOpcode => cases h
      | wideOperand => cases h
      | truncated => cases h

theorem step_busy_head {m : MicroOp} {rest : List MicroOp} {s : State}
    (hr : s.run = .busy) (hs : s.seq = m :: rest) : step s = .next (microResult m rest s) := by
  simp [step, hr, hs, exec_micro_head hr hs]

theorem step_busy_done {s : State} (hr : s.run = .busy) (hs : s.seq = []) : step s = .next (complete s) := by
  simp [step, hr, hs]

theorem step_idle_request {i : Instr} {rest : List Nat} {s : State}
    (hr : s.run = .idle) (hf : fetch s = .request i rest) : step s = exec i { s with port := rest } := by
  simp only [step, hr, hf]

theorem step_idle_nothing {s : State} (hr : s.run = .idle) (hf : fetch s = .nothing) : step s = .next s := by
  simp only [step, hr, hf]

theorem step_idle_malformed {e : DecodeError} {s : State} (hr : s.run = .idle) (hf : fetch s = .malformed e) :
    step s = rejectRequest e s := by
  simp only [step, hr, hf]

/-- What comes off the request port is a request. -/
theorem takeOperands_isRequest {op : Nat} {ws rest : List Nat} {i : Instr}
    (h : takeOperands op ws = .ok (i, rest)) : i.isRequest = true := by
  unfold takeOperands at h
  simp only [bind, Except.bind] at h
  split at h <;> (repeat' split at h) <;> first | (cases h; rfl) | cases h

theorem fetch_isRequest {s : State} {i : Instr} {rest : List Nat} (h : fetch s = .request i rest) :
    i.isRequest = true := by
  unfold fetch at h
  split at h
  · cases h
  · rename_i w ws _
    split at h
    next i' rest' hd =>
      cases h
      exact takeOperands_isRequest hd
    next => cases h

end Sys2Proof.Machine
end

