-- ==== Sys2Proof/Laws/Events.lean ====
section
/-! SUPPORT. Events, replays and latched nibbles of lists put end to end. -/

namespace Sys2Proof.Machine

@[simp] theorem replayFrom_nil (p : PinLevels) : replayFrom p [] = p := rfl

@[simp] theorem replayFrom_cons (p : PinLevels) (ev : PinEvent) (evs : List PinEvent) :
    replayFrom p (ev :: evs) = replayFrom (applyEvent p ev) evs := rfl

theorem replayFrom_append (p : PinLevels) (xs ys : List PinEvent) :
    replayFrom p (xs ++ ys) = replayFrom (replayFrom p xs) ys := by
  simp [replayFrom, List.foldl_append]

theorem latchedFrom_append (p : PinLevels) (xs ys : List PinEvent) :
    latchedFrom p (xs ++ ys) = latchedFrom p xs ++ latchedFrom (replayFrom p xs) ys := by
  induction xs generalizing p with
  | nil => rfl
  | cons ev xs ih => cases ev <;> simp [latchedFrom, ih]

theorem latched_append (xs ys : List PinEvent) :
    latched (xs ++ ys) = latched xs ++ latchedFrom (replay xs) ys :=
  latchedFrom_append _ xs ys

theorem seqEvents_append (c : Config) (source n : Nat) (xs ys : List MicroOp) :
    seqEvents c source n (xs ++ ys) = seqEvents c source n xs ++ seqEvents c source (n + seqDraws xs) ys := by
  induction xs generalizing n with
  | nil => simp [seqEvents, seqDraws]
  | cons m xs ih => simp [seqEvents, seqDraws, ih, Nat.add_assoc]

theorem seqDraws_append (xs ys : List MicroOp) : seqDraws (xs ++ ys) = seqDraws xs + seqDraws ys := by
  induction xs with
  | nil => simp [seqDraws]
  | cons m xs ih => simp [seqDraws, ih, Nat.add_assoc]

/-- Whole frames put before other nibbles do not change how those pair up. -/
theorem frameView_append {xs : List LatchedNibble} (h : wholeFrames xs = true) (ys : List LatchedNibble) :
    frameView (xs ++ ys) = frameView xs ++ frameView ys := by
  induction xs using wholeFrames.induct with
  | case1 hi lo rest ih =>
    simp only [wholeFrames, Bool.and_eq_true] at h
    simp [frameView, ih h.2]
  | case2 x => simp [wholeFrames] at h
  | case3 => rfl

theorem wholeFrames_append {xs : List LatchedNibble} (h : wholeFrames xs = true) (ys : List LatchedNibble) :
    wholeFrames (xs ++ ys) = wholeFrames ys := by
  induction xs using wholeFrames.induct with
  | case1 hi lo rest ih =>
    simp only [wholeFrames, Bool.and_eq_true] at h
    simp [wholeFrames, ih h.2, eq_of_beq h.1]
  | case2 x => simp [wholeFrames] at h
  | case3 => rfl

/-- Running past the head micro-operation of a BUSY block. -/
theorem runSteps_busy_head {m : MicroOp} {rest : List MicroOp} {s : State} (k : Nat)
    (hr : s.run = .busy) (hs : s.seq = m :: rest) :
    runSteps (k + 1) s = runSteps k (microResult m rest s) := by
  simp [runSteps, step_busy_head hr hs]

theorem runSteps_succ {s t : State} (k : Nat) (h : step s = .next t) : runSteps (k + 1) s = runSteps k t := by
  simp [runSteps, h]

theorem runSteps_add {s t : State} (j k : Nat) (h : runSteps j s = .next t) :
    runSteps (j + k) s = runSteps k t := by
  induction j generalizing s with
  | zero => simp [runSteps] at h; simp [h]
  | succ j ih =>
    rw [Nat.succ_add]
    simp only [runSteps] at h ⊢
    split at h
    next u hu => exact ih h
    next => cases h
    next => cases h

/-- The claims' runs are the host's runs of the core. -/
theorem runSteps_eq_core_run (k : Nat) (s : State) : runSteps k s = Sys2Proof.core.run k s := by
  induction k generalizing s with
  | zero => rfl
  | succ k ih =>
    have hc : Sys2Proof.core.step s = step s := rfl
    cases h : step s <;> (simp only [runSteps, Host.Core.run, hc, h, ih]; rfl)

end Sys2Proof.Machine
end

