-- ==== Sys2Proof/Laws/PerInstr.lean ====
section
/-! SUPPORT. Facts about every instruction as syntax, one lemma per constructor. -/

/-- The match, mask and width of an opcode-table row (spec/opcode_table.json). -/
structure Sys2Proof.Laws.TableRow where
  value : Nat
  mask  : Nat
  width : Nat

/-- The row of each instruction, as spec/opcode_table.json has it. -/
def Sys2Proof.Laws.rowOf : Sys2Proof.Instr → Sys2Proof.Laws.TableRow
  | .init _ _ _ => ⟨0x1, 0xF, 4⟩
  | .sendCmd _ => ⟨0x2, 0xF, 4⟩
  | .sendData _ => ⟨0x3, 0xF, 4⟩
  | .sendEnc _ => ⟨0x4, 0xF, 4⟩
  | .sendRaw _ => ⟨0x5, 0xF, 4⟩
  | .clear => ⟨0x6, 0xF, 4⟩
  | .setCursor _ _ => ⟨0x7, 0xF, 4⟩
  | .writeChar _ => ⟨0x8, 0xF, 4⟩
  | .writeString _ => ⟨0x9, 0xF, 4⟩
  | .defineGlyph _ _ => ⟨0xA, 0xF, 4⟩
  | .drawGlyph _ => ⟨0xB, 0xF, 4⟩
  | .setLevels _ _ _ _ _ => ⟨0x00, 0x20, 6⟩
  | .latch => ⟨0x20, 0x3F, 6⟩
  | .settle _ _ => ⟨0x30, 0x3F, 6⟩
  | .bind _ _ => ⟨0x38, 0x3E, 6⟩

/-- The first word of an instruction's encoding fits its format and meets its row's match under its mask. -/
def Sys2Proof.Laws.TableWord.Statement (i : Sys2Proof.Instr) : Prop :=
  ∃ w ws, Sys2Proof.encode i = w :: ws ∧ w < 2 ^ (Sys2Proof.Laws.rowOf i).width ∧
    w &&& (Sys2Proof.Laws.rowOf i).mask = (Sys2Proof.Laws.rowOf i).value

namespace Sys2Proof.Laws.TableWord

/-- The statement from the first word and the row, both written out. -/
theorem of_row {i : Instr} (w : Nat) (r : TableRow) (ws : List Nat) (he : encode i = w :: ws) (hr : rowOf i = r)
    (hw : w < 2 ^ r.width) (hm : w &&& r.mask = r.value) : Statement i :=
  ⟨w, ws, he, hr ▸ hw, hr ▸ hm⟩

theorem init (board : BoardKind) (socket : SocketId) (bl : Level) : Statement (.init board socket bl) :=
  of_row 1 ⟨1, 15, 4⟩ _ rfl rfl (Nat.le_of_ble_eq_true rfl) rfl
theorem sendCmd (b : Byte) : Statement (.sendCmd b) :=
  of_row 2 ⟨2, 15, 4⟩ _ rfl rfl (Nat.le_of_ble_eq_true rfl) rfl
theorem sendData (b : Byte) : Statement (.sendData b) :=
  of_row 3 ⟨3, 15, 4⟩ _ rfl rfl (Nat.le_of_ble_eq_true rfl) rfl
theorem sendEnc (text : Text) : Statement (.sendEnc text) :=
  of_row 4 ⟨4, 15, 4⟩ _ rfl rfl (Nat.le_of_ble_eq_true rfl) rfl
theorem sendRaw (bits : Text) : Statement (.sendRaw bits) :=
  of_row 5 ⟨5, 15, 4⟩ _ rfl rfl (Nat.le_of_ble_eq_true rfl) rfl
theorem clear : Statement .clear :=
  of_row 6 ⟨6, 15, 4⟩ _ rfl rfl (Nat.le_of_ble_eq_true rfl) rfl
theorem setCursor (column row : Int) : Statement (.setCursor column row) :=
  of_row 7 ⟨7, 15, 4⟩ _ rfl rfl (Nat.le_of_ble_eq_true rfl) rfl
theorem writeChar (code : Nat) : Statement (.writeChar code) :=
  of_row 8 ⟨8, 15, 4⟩ _ rfl rfl (Nat.le_of_ble_eq_true rfl) rfl
theorem writeString (text : Text) : Statement (.writeString text) :=
  of_row 9 ⟨9, 15, 4⟩ _ rfl rfl (Nat.le_of_ble_eq_true rfl) rfl
theorem defineGlyph (slot : Int) (rows : List Text) : Statement (.defineGlyph slot rows) :=
  of_row 10 ⟨10, 15, 4⟩ _ rfl rfl (Nat.le_of_ble_eq_true rfl) rfl
theorem drawGlyph (slot : Int) : Statement (.drawGlyph slot) :=
  of_row 11 ⟨11, 15, 4⟩ _ rfl rfl (Nat.le_of_ble_eq_true rfl) rfl
theorem setLevels (rs d7 d6 d5 d4 : Level) : Statement (.setLevels rs d7 d6 d5 d4) := by
  refine of_row _ ⟨0x00, 0x20, 6⟩ _ rfl rfl ?_ ?_ <;> revert rs d7 d6 d5 d4 <;> decide
theorem latch : Statement .latch :=
  of_row 0x20 ⟨0x20, 0x3F, 6⟩ _ rfl rfl (Nat.le_of_ble_eq_true rfl) rfl
theorem settle (rs : Level) (b : Byte) : Statement (.settle rs b) :=
  of_row 0x30 ⟨0x30, 0x3F, 6⟩ _ rfl rfl (Nat.le_of_ble_eq_true rfl) rfl
theorem bind (bl : Level) (p : Pins) : Statement (.bind bl p) := by
  refine of_row _ ⟨0x38, 0x3E, 6⟩ _ rfl rfl ?_ ?_ <;> revert bl <;> decide

end Sys2Proof.Laws.TableWord
end

