-- ==== Sys2Proof/Laws/Time.lean ====
section
/-! SUPPORT. The times of the events: what a start can be, and what a timeline keeps. -/

namespace Sys2Proof.Machine

/-- An event starts after the last has ended and not before the minima allow it. -/
theorem eventStart_ge (c : Config) (source k : Nat) (clk : Clock) (ev : PinEvent) :
    clk.now ≤ eventStart c source k clk ev ∧ earliest c clk ev ≤ eventStart c source k clk ev := by
  unfold eventStart
  omega

@[simp] theorem after_now (clk : Clock) (t : Nat) (ev : PinEvent) : (clk.after t ev).now = t + ev.duration := by
  cases ev <;> rfl

@[simp] theorem timeline_nil (c : Config) (source k : Nat) (clk : Clock) : timeline c source k clk [] = [] := rfl

@[simp] theorem timeline_cons (c : Config) (source k : Nat) (clk : Clock) (ev : PinEvent) (evs : List PinEvent) :
    timeline c source k clk (ev :: evs) =
      (eventStart c source k clk ev, ev)
        :: timeline c source (k + 1) (clk.after (eventStart c source k clk ev) ev) evs := rfl

/-- The clock after a list of events. -/
def clockAfter (c : Config) (source k : Nat) (clk : Clock) : List PinEvent → Clock
  | [] => clk
  | ev :: evs => clockAfter c source (k + 1) (clk.after (eventStart c source k clk ev) ev) evs

/-- More events at the end leave the times of the earlier ones as they are. -/
theorem timeline_append (c : Config) (source k : Nat) (clk : Clock) (xs ys : List PinEvent) :
    timeline c source k clk (xs ++ ys) =
      timeline c source k clk xs ++ timeline c source (k + xs.length) (clockAfter c source k clk xs) ys := by
  induction xs generalizing k clk with
  | nil => rfl
  | cons x xs ih =>
    simp only [List.cons_append, timeline_cons, ih, List.length_cons, clockAfter]
    rw [show k + 1 + xs.length = k + (xs.length + 1) by omega]

/-- Every event of a timeline starts after the clock it starts from. -/
theorem timeline_starts_after {c : Config} {source k : Nat} {clk : Clock} {evs : List PinEvent} {x : Nat × PinEvent}
    (h : x ∈ timeline c source k clk evs) : clk.now ≤ x.1 := by
  induction evs generalizing k clk with
  | nil => cases h
  | cons ev evs ih =>
    have hs := eventStart_ge c source k clk ev
    rcases List.mem_cons.1 (timeline_cons c source k clk ev evs ▸ h) with rfl | h
    · exact hs.1
    · have := ih h
      rw [after_now] at this
      omega

/-- A timeline lasts at least as long as its events. -/
theorem span_ge_durations (c : Config) (source k : Nat) (clk : Clock) (evs : List PinEvent) :
    (evs.map PinEvent.duration).sum ≤ span (timeline c source k clk evs) := by
  have last : ∀ (evs : List PinEvent) (k : Nat) (clk : Clock) (x : Nat × PinEvent), x.1 + x.2.duration ≤ clk.now →
      x.1 + x.2.duration + (evs.map PinEvent.duration).sum ≤
        ((timeline c source k clk evs).getLastD x).1 + ((timeline c source k clk evs).getLastD x).2.duration := by
    intro evs
    induction evs with
    | nil => intro k clk x _; simp
    | cons ev evs ih =>
      intro k clk x hx
      have hs := (eventStart_ge c source k clk ev).1
      have := ih (k + 1) (clk.after (eventStart c source k clk ev) ev) (eventStart c source k clk ev, ev) (by simp)
      simp only [timeline_cons, List.getLastD_cons, List.map_cons, List.sum_cons]
      simp only at this
      omega
  cases evs with
  | nil => simp
  | cons ev evs =>
    have := last evs (k + 1) (clk.after (eventStart c source k clk ev) ev) (eventStart c source k clk ev, ev) (by simp)
    simp only [timeline_cons, span, List.map_cons, List.sum_cons]
    simp only at this
    omega

end Sys2Proof.Machine
end

