-- ==== Sys2Proof/Tests/Slice0.lean ====
section
/-! SUPPORT. The model's own tests, each of one step or one function, and the witnesses of the statements' hypotheses.  Expected
values come from spec/95_test_vectors.md (V<n>, P<n>) and the encodings of spec/30_encoding.md, not from the model.
Characters are written as the codes spec/00_scope.md R11 gives. -/

namespace Sys2Proof.Tests
open Sys2Proof.Machine

/-! ### Helpers -/

/-- Whether an outcome is a next state with a property. -/
def isNext (o : Host.Outcome State Fault Refusal) (p : State → Bool) : Bool :=
  match o with
  | .next s => p s
  | .fault _ => false
  | .refused _ => false

/-- The pin set `p` of the vectors' test configuration. -/
def pins : Pins := ⟨0, 1, 2, 3, 4, 5, 6⟩

/-- The vectors' test configuration, with the error policy, ACCEPT_SHORT_ROWS and T_SETTLE_AFTER given. -/
def config (policy : ErrorPolicy) (short : Bool) (settle : List ((Level × Byte) × Nat)) : Config :=
  { Config.reference with errorPolicy := policy, acceptShortRows := short, settleAfter := settle }

/-- The default configuration of the vectors. -/
def plain : Config := config .report false []

/-- A READY block whose lines have been bound with BACKLIGHT high. -/
def ready (c : Config) : State :=
  { State.resetWith c with
    pin := ⟨.level false, .level false, .level false, .level false, .level false, .level false, .level true⟩
    bound := some pins
    phase := .ready
    trace := [.bind true] }

/-- The READY block of the default configuration, BUSY with some micro-operations. -/
def busy (ops : List MicroOp) : State := { ready plain with run := .busy, seq := ops }

/-- The events of the vectors' `F(rs, b)` with the dwells forgotten, from its two latched nibbles. -/
def frameShape (rs h3 h2 h1 h0 l3 l2 l1 l0 : Level) : List PinEvent :=
  [.levels rs h3 h2 h1 h0, .eRise, .hold 0, .eFall, .levels rs l3 l2 l1 l0, .eRise, .hold 0, .eFall]

/-- Whether a request on a READY block is accepted and plans frames with these events. -/
def plans (c : Config) (i : Instr) (evs : List PinEvent) : Bool :=
  isNext (exec i (ready c)) fun t =>
    decide (t.run = .busy ∧ (seqEvents c 0 0 t.seq).map PinEvent.untimed = evs)

/-- Whether a request on a READY block ends with an error and nothing planned, the trace unchanged. -/
def errs (c : Config) (i : Instr) (k : ErrorKind) : Bool :=
  isNext (exec i (ready c)) fun t =>
    decide (t.resp = [.err k] ∧ t.seq = [] ∧ t.trace = [.bind true] ∧ t.pin = (ready c).pin)

/-! ### Well-formedness: an ill-formed term for each check -/

theorem test_wellFormed_bind_distinct : WellFormed (.bind true pins) = true := by decide
/-- Two of the seven handles are one line (R14). -/
theorem test_wellFormed_refuses_repeated_handle : WellFormed (.bind true { pins with e := 0 }) = false := by decide
theorem test_config_wellFormed : plain.wellFormed = true := by decide
theorem test_config_wellFormed_refuses_repeated_handle :
    Config.wellFormed { plain with pinTable := [(0, [(0, { pins with bl := 4 })])] } = false := by decide

/-! ### Decoding: words written out from the opcodes of R72 and the micro-operation words of R80 -/

theorem test_decode_init : decode .request [0b0001, 3, 4, 1] = .ok (.init 3 4 true, []) := by decide
theorem test_decode_sendCmd : decode .request [0b0010, 0x0C] = .ok (.sendCmd 0x0C, []) := by decide
theorem test_decode_sendData : decode .request [0b0011, 0x41] = .ok (.sendData 0x41, []) := by decide
theorem test_decode_sendEnc :
    decode .request [0b0100, 4, 0x31, 0x78, 0x34, 0x31] = .ok (.sendEnc [0x31, 0x78, 0x34, 0x31], []) := by decide
theorem test_decode_sendRaw : decode .request [0b0101, 2, 0x30, 0x31] = .ok (.sendRaw [0x30, 0x31], []) := by decide
theorem test_decode_clear : decode .request [0b0110] = .ok (.clear, []) := by decide
theorem test_decode_setCursor : decode .request [0b0111, 78, 2] = .ok (.setCursor 39 1, []) := by decide
theorem test_decode_setCursor_negative : decode .request [0b0111, 1, 0] = .ok (.setCursor (-1) 0, []) := by decide
theorem test_decode_writeChar : decode .request [0b1000, 0x263A] = .ok (.writeChar 0x263A, []) := by decide
theorem test_decode_writeString :
    decode .request [0b1001, 2, 0x48, 0x69, 6] = .ok (.writeString [0x48, 0x69], [6]) := by decide
theorem test_decode_defineGlyph :
    decode .request [0b1010, 4, 2, 1, 0x31, 0] = .ok (.defineGlyph 2 [[0x31], []], []) := by decide
theorem test_decode_drawGlyph : decode .request [0b1011, 16] = .ok (.drawGlyph 8, []) := by decide
/-- V24's word `011100`. -/
theorem test_decode_setLevels : decode .micro [0b011100] = .ok (.setLevels true true true false false, []) := by decide
/-- V26's word `100000`. -/
theorem test_decode_latch : decode .micro [0b100000] = .ok (.latch, []) := by decide
/-- V27's word `110000`. -/
theorem test_decode_settle : decode .micro [0b110000, 0, 1] = .ok (.settle false 1, []) := by decide
/-- V22's and V23's words `111001` and `111000`. -/
theorem test_decode_bind :
    decode .micro [0b111001, 0, 1, 2, 3, 4, 5, 6] = .ok (.bind true pins, []) ∧
    decode .micro [0b111000, 0, 1, 2, 3, 4, 5, 6] = .ok (.bind false pins, []) := by decide
/-- R73: 0x0 and 0xC..0xF spell no request. -/
theorem test_decode_reserved_opcodes :
    decode .request [0x0] = .error .reservedOpcode ∧ decode .request [0xC] = .error .reservedOpcode ∧
    decode .request [0xF] = .error .reservedOpcode := by decide
/-- V28: `101000`, `111100` and `110001` are reserved. -/
theorem test_decode_reserved_micro :
    decode .micro [0b101000] = .error .reservedMicro ∧ decode .micro [0b111100] = .error .reservedMicro ∧
    decode .micro [0b110001] = .error .reservedMicro := by decide
/-- D34: a wider value cannot be spelled. -/
theorem test_decode_wide_byte : decode .request [0x2, 256] = .error .wideOperand := by decide
theorem test_decode_truncated : decode .request [0x9, 2, 0x48] = .error .truncated := by decide

/-- One table word of each format, as the host numbers it. -/
theorem test_decodeTableWord :
    decodeTableWord 4 0x6 = some .clear ∧ decodeTableWord 8 0x3 = some (.sendData 0) ∧
    decodeTableWord 6 0x1D = some (.setLevels true true true false true) ∧
    decodeTableWord 8 0x20 = some .latch ∧ decodeTableWord 4 0xC = none := by decide
/-- The first step after reset runs the word placed: CLEAR before INIT is a fault (V53), a SET_LEVELS drives its levels. -/
theorem test_withFetchWord :
    isNext (step (State.reset.withFetchWord 4 0x6)) (fun t => decide (t.run = .faulted .notReady)) = true ∧
    isNext (step (State.reset.withFetchWord 6 0x1C))
      (fun t => decide (t.trace = [.levels true true true false false] ∧ t.seq = [])) = true := by decide
/-- R78's assembler syntax. -/
theorem test_mnemonic : Instr.mnemonic (.setCursor 5 1) = "SET_CURSOR" := by decide

/-! ### The codec functions (V1 to V20) -/

theorem test_V1_V2_nibbles :
    nibbleHigh 0x4F = ⟨false, true, false, false⟩ ∧ nibbleLow 0x4F = ⟨true, true, true, true⟩ ∧
    (nibbleHigh 0xA7).value = 10 ∧ (nibbleLow 0xA7).value = 7 := by decide
theorem test_V4_hexValue :
    [0x47, 0x67, 0x78, 0x20].map hexValue = List.replicate 4 (.error .invalidEncoding) := by decide
/-- "4f", "4F", "ff"; "4G", "4", "4FF". -/
theorem test_V5_V6_decodeHexPair :
    [[0x34, 0x66], [0x34, 0x46], [0x66, 0x66], [0x34, 0x47], [0x34], [0x34, 0x46, 0x46]].map decodeHexPair =
      [.ok 0x4F, .ok 0x4F, .ok 0xFF, .error .invalidEncoding, .error .invalidEncoding, .error .invalidEncoding] := by
  decide
/-- "1x41" and "0x0c"; "0X33", "0x333", "2x33" and "1y41". -/
theorem test_V8_V9_decodeRoutingText :
    [[0x31, 0x78, 0x34, 0x31], [0x30, 0x78, 0x30, 0x63], [0x30, 0x58, 0x33, 0x33], [0x30, 0x78, 0x33, 0x33, 0x33],
      [0x32, 0x78, 0x33, 0x33], [0x31, 0x79, 0x34, 0x31]].map decodeRoutingText =
      [.ok (true, 0x41), .ok (false, 0x0C), .error .invalidEncoding, .error .invalidEncoding,
        .error .invalidEncoding, .error .invalidEncoding] := by decide
/-- "011000101" and "100100001"; "01100010a". -/
theorem test_V10_V11_decodeRawFrame :
    [[0x30, 0x31, 0x31, 0x30, 0x30, 0x30, 0x31, 0x30, 0x31], [0x31, 0x30, 0x30, 0x31, 0x30, 0x30, 0x30, 0x30, 0x31],
      [0x30, 0x31, 0x31, 0x30, 0x30, 0x30, 0x31, 0x30, 0x61]].map decodeRawFrame =
      [.ok (false, 12, 5), .ok (true, 2, 1), .error .invalidFrame] := by decide
/-- "01110", "10001abc", "10201", "1000". -/
theorem test_V12_V13_binaryPatternToByte :
    [[0x30, 0x31, 0x31, 0x31, 0x30], [0x31, 0x30, 0x30, 0x30, 0x31, 0x61, 0x62, 0x63], [0x31, 0x30, 0x32, 0x30, 0x31],
      [0x31, 0x30, 0x30, 0x30]].map (binaryPatternToByte false) =
      [.ok 14, .ok 17, .error .invalidEncoding, .error .invalidEncoding] := by decide
/-- "", "1", "101", "0001", "12" with ACCEPT_SHORT_ROWS. -/
theorem test_V14_binaryPatternToByte_short :
    [[], [0x31], [0x31, 0x30, 0x31], [0x30, 0x30, 0x30, 0x31], [0x31, 0x32]].map (binaryPatternToByte true) =
      [.ok 0, .ok 16, .ok 20, .ok 2, .error .invalidEncoding] := by decide
/-- "41" and "FF"; "1000101". -/
theorem test_V15_V16_hex2_bin7 :
    hex2 0x41 = [0x34, 0x31] ∧ hex2 255 = [0x46, 0x46] ∧
    bin7 69 = [0x31, 0x30, 0x30, 0x30, 0x31, 0x30, 0x31] := by decide
theorem test_V17_V18_cursorAddress :
    cursorAddress 39 0 = .ok 39 ∧ cursorAddress 5 1 = .ok 69 ∧ cursorAddress 40 0 = .error .invalidCursor ∧
    cursorAddress 0 2 = .error .invalidCursor := by decide
theorem test_V19_V20_slots :
    cgramCommand 8 = .ok 0x78 ∧ cgramCommand 0 = .error .invalidSlot ∧ glyphDrawByte 8 = .ok 7 ∧
    glyphDrawByte 9 = .error .invalidSlot := by decide

/-! ### One step of each instruction -/

theorem test_V24_setLevels :
    isNext (exec (.setLevels true true true false false) (busy [.setLevels true true true false false, .latch])) (fun t =>
      decide (t.trace = [.bind true, .levels true true true false false] ∧ t.seq = [.latch] ∧ t.pin.d7 = .level true ∧
        t.pin.d6 = .level true ∧ t.pin.d5 = .level false ∧ t.pin.d4 = .level false ∧ t.pin.rs = .level true ∧
        t.pin.e = .level false ∧ t.pin.bl = .level true)) = true := by decide
theorem test_V26_latch :
    isNext (exec .latch (busy [.latch])) (fun t =>
      decide (t.trace.map PinEvent.untimed = [.bind true, .eRise, .hold 0, .eFall] ∧ t.pin = (busy []).pin)) = true := by
  decide
theorem test_V27_settle :
    isNext (exec (.settle false 0x01)
      { busy [.settle false 0x01] with cfg := config .report false [((false, 0x01), 2000)] })
      (fun t => decide (t.trace = [.bind true, .hold 2000])) = true := by decide
theorem test_V23_bind :
    isNext (exec (.bind false pins) { State.reset with run := .busy, seq := [.bind false pins] }) (fun t =>
      decide (t.trace = [.bind false] ∧ t.bound = some pins ∧ t.pin.bl = .level false ∧ t.pin.d7 = .level false)) =
      true := by decide
/-- V29: BIND(1) and F(0,0x33), F(0,0x32), F(0,0x0C), F(0,0x01). -/
theorem test_V29_init :
    isNext (exec (.init 0 0 true) State.reset) (fun t =>
      decide ((seqEvents plain 0 0 t.seq).map PinEvent.untimed =
        .bind true :: (frameShape false false false true true false false true true ++
          frameShape false false false true true false false true false ++
          frameShape false false false false false true true false false ++
          frameShape false false false false false false false false true))) = true := by decide
/-- V31 and V32. -/
theorem test_V31_V32_init_unresolved :
    isNext (exec (.init 1 0 true) State.reset) (fun t =>
      decide (t.resp = [.err .unsupportedBoard] ∧ t.run = .idle ∧ t.phase = .uninit ∧ t.trace = [])) = true ∧
    isNext (exec (.init 0 1 true) State.reset) (fun t => decide (t.resp = [.err .invalidSocket])) = true := by decide
theorem test_V37_sendCmd :
    plans plain (.sendCmd 0x0C) (frameShape false false false false false true true false false) = true := by decide
theorem test_V40_sendData :
    plans plain (.sendData 0x41) (frameShape true false true false false false false false true) = true := by decide
theorem test_V42_sendEnc :
    plans plain (.sendEnc [0x31, 0x78, 0x34, 0x31])
      (frameShape true false true false false false false false true) = true := by decide
theorem test_V44_sendEnc_upper_x : errs plain (.sendEnc [0x30, 0x58, 0x30, 0x31]) .invalidEncoding = true := by decide
theorem test_P5_sendRaw :
    plans plain (.sendRaw [0x30, 0x31, 0x31, 0x30, 0x30, 0x30, 0x31, 0x30, 0x31])
      (frameShape false true true false false false true false true) = true := by decide
theorem test_V50_sendRaw_ten :
    errs plain (.sendRaw [0x30, 0x31, 0x31, 0x30, 0x30, 0x30, 0x31, 0x30, 0x31, 0x32]) .invalidFrame = true := by decide
theorem test_V52_clear :
    plans plain .clear (frameShape false false false false false false false false true) = true := by decide
theorem test_V57_setCursor :
    plans plain (.setCursor 39 1) (frameShape false true true true false false true true true) = true := by decide
theorem test_V58_setCursor_left : errs plain (.setCursor (-1) 0) .invalidCursor = true := by decide
theorem test_V61_writeChar :
    plans plain (.writeChar 9) (frameShape true false false false false true false false true) = true := by decide
theorem test_V63_writeChar_256 : errs plain (.writeChar 256) .invalidEncoding = true := by decide
theorem test_V66_writeString :
    plans plain (.writeString [0x48, 0x69])
      (frameShape true false true false false true false false false ++
        frameShape true false true true false true false false true) = true := by decide
theorem test_V68_writeString_bad : errs plain (.writeString [0x41, 0x100, 0x42]) .invalidEncoding = true := by decide
/-- V76: a short eighth row under ACCEPT_SHORT_ROWS. -/
theorem test_V76_defineGlyph :
    plans (config .report true []) (.defineGlyph 2 (List.replicate 7 (List.replicate 5 0x30) ++ [[0x31, 0x30, 0x30, 0x30]]))
      (frameShape false false true false false true false false false ++
        (List.replicate 7 (frameShape true false false false false false false false false)).flatten ++
        frameShape true false false false true false false false false) = true := by decide
/-- V72 and V75: the slot is checked first; a short row fails before any frame. -/
theorem test_V72_V75_defineGlyph_bad :
    errs plain (.defineGlyph 9 (List.replicate 7 (List.replicate 5 0x30))) .invalidSlot = true ∧
    errs plain (.defineGlyph 2 (List.replicate 7 (List.replicate 5 0x30) ++ [[0x31, 0x30, 0x30, 0x30]]))
      .invalidEncoding = true := by decide
theorem test_V79_drawGlyph :
    plans plain (.drawGlyph 8) (frameShape true false false false false false true true true) = true := by decide
theorem test_V80_drawGlyph_bad :
    errs plain (.drawGlyph 0) .invalidSlot = true ∧ errs plain (.drawGlyph 9) .invalidSlot = true := by decide
/-- V86: under `halt` the run ends in HALTED. -/
theorem test_V86_halt :
    isNext (exec (.setCursor 40 0) (ready (config .halt false []))) (fun t =>
      decide (t.run = .halted .invalidCursor)) = true := by decide
/-- V83 and V84: the opcode before the phase, the phase before the operands. -/
theorem test_V83_V84_priority :
    isNext (step { State.reset with port := [0xF] }) (fun t => decide (t.run = .faulted .illegalRequest)) = true ∧
    isNext (step (State.reset.issue (.setCursor 40 0))) (fun t => decide (t.run = .faulted .notReady ∧ t.resp = [])) =
      true := by decide
/-- R9, R105 by hand: E fell at 98 and may not rise before 98 + 5; a LEVELS at 100 allows 100 + 2. -/
theorem test_minima_delay_the_next_event :
    earliest { plain with tELowMin := 5, tSetupMin := 2 } ⟨100, some 100, some 98⟩ .eRise = 103 ∧
    earliest { plain with tHoldMin := 4 } ⟨98, none, some 98⟩ (.levels true true true true true) = 102 ∧
    earliest plain (Clock.start 7) .eRise = 0 := by decide
/-- R76: the last status as its code. -/
theorem test_lastStatus :
    (ready plain).lastStatus = none ∧
    State.lastStatus { ready plain with resp := [.ok, .err .invalidSlot] } = some 6#3 := by decide

/-! ### Witnesses: for every statement with hypotheses, a state and operands that meet them together, each clause at a
boundary value of its range.  The theorem names the statement. -/

theorem witness_SetLevelsDrivesFiveLinesInOneEvent :
    (busy [.setLevels true false true false true]).run = .busy ∧
    (busy [.setLevels true false true false true]).seq = .setLevels true false true false true :: [] := by decide
theorem witness_LatchStrobesForAtLeastOneMillisecond :
    (busy [.latch]).run = .busy ∧ (busy [.latch]).seq = .latch :: [] := by decide
theorem witness_SettleWaitsOnlyWhenPositive :
    (busy [.settle true 0xFF]).run = .busy ∧ (busy [.settle true 0xFF]).seq = .settle true 0xFF :: [] ∧
    settleTime (busy [.settle true 0xFF]).cfg true 0xFF = 0 ∧
    0 < settleTime (config .report false [((true, 0xFF), 1)]) true 0xFF := by decide
theorem witness_BindTakesAndDrivesTheSevenLines :
    (busy [.bind false pins]).run = .busy ∧ (busy [.bind false pins]).seq = .bind false pins :: [] := by decide
theorem witness_MicroOperationRunsOnlyAsHeadOfBusyBlock :
    ¬ ((ready plain).run = .busy ∧ (ready plain).seq.head? = some MicroOp.latch) ∧
    ¬ ((busy [.setLevels true true true true true, .latch]).run = .busy ∧
      (busy [.setLevels true true true true true, .latch]).seq.head? = some MicroOp.latch) := by decide
theorem witness_InitPlansBindAndFourFrames :
    State.reset.run = .idle ∧ State.reset.phase = .uninit ∧
    State.reset.cfg.pinTable.lookup 0 = some [(0, pins)] ∧ ([(0, pins)] : List (SocketId × Pins)).lookup 0 = some pins := by
  decide
theorem witness_InitUnresolvedReturnsItsError :
    State.reset.run = .idle ∧ State.reset.phase = .uninit ∧ State.reset.cfg.pinTable.lookup 1 = none ∧
    State.reset.cfg.pinTable.lookup 0 = some [(0, pins)] ∧ ([(0, pins)] : List (SocketId × Pins)).lookup 1 = none := by
  decide
theorem witness_ByteRequestsPlanOneFrame : (ready plain).run = .idle ∧ (ready plain).phase = .ready := by decide
theorem witness_SendEncSendsExactlyRoutingTexts :
    (ready plain).run = .idle ∧ (ready plain).phase = .ready ∧
    hexValue 0x46 = .ok 15 ∧ hexValue 0x61 = .ok 10 ∧
    ∀ (rs : Level) (c2 c3 h l : Nat), hexValue c2 = .ok h → hexValue c3 = .ok l →
      ([0x30, 0x78, 0x33] : Text) ≠ [if rs then 0x31 else 0x30, 0x78, c2, c3] :=
  ⟨rfl, rfl, rfl, rfl, fun rs c2 c3 _ _ _ _ h => by cases rs <;> simp at h⟩
theorem witness_SendRawSendsExactlyNineBits :
    (ready plain).run = .idle ∧ (ready plain).phase = .ready ∧
    ¬ ((List.replicate 8 0x30 : Text).length = 9 ∧ ∀ c ∈ (List.replicate 8 0x30 : Text), c = 0x30 ∨ c = 0x31) ∧
    ¬ ((List.replicate 9 0x32 : Text).length = 9 ∧ ∀ c ∈ (List.replicate 9 0x32 : Text), c = 0x30 ∨ c = 0x31) := by
  decide
theorem witness_SetCursorSendsTheDdramCommand :
    (ready plain).run = .idle ∧ (ready plain).phase = .ready ∧
    ((0 : Int) ≤ 39 ∧ (39 : Int) < 40 ∧ ((1 : Int) = 0 ∨ (1 : Int) = 1)) ∧
    ((0 : Int) ≤ 0 ∧ (0 : Int) < 40 ∧ ((0 : Int) = 0 ∨ (0 : Int) = 1)) ∧
    ¬ ((0 : Int) ≤ 40 ∧ (40 : Int) < 40 ∧ (0 : Int) ≤ 1 ∧ (1 : Int) ≤ 1) ∧
    ¬ ((0 : Int) ≤ -1 ∧ (-1 : Int) < 40 ∧ (0 : Int) ≤ 0 ∧ (0 : Int) ≤ 1) ∧
    ¬ ((0 : Int) ≤ 0 ∧ (0 : Int) < 40 ∧ (0 : Int) ≤ 2 ∧ (2 : Int) ≤ 1) := by decide
theorem witness_WriteCharSendsTheCodeAsData :
    (ready plain).run = .idle ∧ (ready plain).phase = .ready ∧ 255 ≤ 0xFF ∧ 0xFF < 256 := by decide
theorem witness_WriteStringSendsAllOrNothing :
    (ready plain).run = .idle ∧ (ready plain).phase = .ready ∧
    (∀ code ∈ ([255, 0] : Text), code ≤ 0xFF) ∧ (∀ code ∈ ([] : Text), code ≤ 0xFF) ∧
    ∃ code ∈ ([65, 256] : Text), 0xFF < code := by decide
/-- The rows "11111" eight times. -/
def fullRows : List Text := List.replicate 8 (List.replicate 5 0x31)
theorem fullRows_read :
    List.Forall₂ (fun row v => binaryPatternToByte false row = .ok v) fullRows (List.replicate 8 31#8) := by
  simp only [fullRows, List.replicate]
  repeat' constructor
theorem witness_DefineGlyphSendsCommandThenEightRows :
    (ready plain).run = .idle ∧ (ready plain).phase = .ready ∧
    ((1 : Int) ≤ 1 ∧ (1 : Int) ≤ 8 ∧ (1 : Int) ≤ 8 ∧ (8 : Int) ≤ 8 ∧ fullRows.length = 8 ∧
      List.Forall₂ (fun row v => binaryPatternToByte (ready plain).cfg.acceptShortRows row = .ok v) fullRows
        (List.replicate 8 31#8)) ∧
    (¬ ((1 : Int) ≤ 0 ∧ (0 : Int) ≤ 8) ∧ ¬ ((1 : Int) ≤ 9 ∧ (9 : Int) ≤ 8)) ∧
    fullRows.tail.length ≠ 8 ∧
    ∃ row ∈ ([0x32] :: fullRows.tail), ∃ k, binaryPatternToByte (ready plain).cfg.acceptShortRows row = .error k :=
  ⟨rfl, rfl, ⟨by decide, by decide, by decide, by decide, rfl, fullRows_read⟩, by decide, by decide,
    [0x32], by simp, .invalidEncoding, rfl⟩
theorem witness_DrawGlyphSendsSlotMinusOne :
    (ready plain).run = .idle ∧ (ready plain).phase = .ready ∧
    ((1 : Int) ≤ 1 ∧ (1 : Int) ≤ 8 ∧ (1 : Int) ≤ 8 ∧ (8 : Int) ≤ 8) ∧
    ¬ ((1 : Int) ≤ 0 ∧ (0 : Int) ≤ 8) ∧ ¬ ((1 : Int) ≤ 9 ∧ (9 : Int) ≤ 8) := by decide
/-- One witness for each clause with hypotheses; the clauses of WRITE_STRING, DEFINE_GLYPH and DRAW_GLYPH share theirs with
the statements of those requests above. -/
theorem witness_RequestsEqualTheirExpansions :
    255 ≤ 0xFF ∧ cursorAddress 39 1 = .ok 103 ∧ decodeHexPair [0x46, 0x66] = .ok 0xFF ∧
    decodeRawFrame (List.replicate 9 0x31) = .ok (true, 15, 15) ∧
    resolvePins State.reset.cfg 0 0 = .ok pins ∧ State.reset.run = .idle ∧ State.reset.phase = .uninit := by decide
theorem witness_HexValueReadsExactlyTheHexDigits :
    (0x30 ≤ 0x39 ∧ 0x39 ≤ 0x39) ∧ (0x41 ≤ 0x46 ∧ 0x46 ≤ 0x46) ∧ (0x61 ≤ 0x66 ∧ 0x66 ≤ 0x66) ∧
    ∀ c ∈ [0x2F, 0x3A, 0x40, 0x47, 0x60, 0x67],
      ¬ (0x30 ≤ c ∧ c ≤ 0x39) ∧ ¬ (0x41 ≤ c ∧ c ≤ 0x46) ∧ ¬ (0x61 ≤ c ∧ c ≤ 0x66) := by decide
theorem witness_RowPatternsReadFiveWeightedBits :
    (List.replicate 4 0x31 : Text).length < 5 ∧ (List.replicate 4 true).length < 5 ∧
    0x32 ∈ ([0x30, 0x30, 0x30, 0x30, 0x32, 0x31] : Text).take 5 ∧ 0x32 ≠ 0x30 ∧ 0x32 ≠ 0x31 := by decide
theorem witness_CodecLawsHold :
    127 < 128 ∧ (0 : Int) ≤ 39 ∧ (39 : Int) < 40 ∧ ((1 : Int) = 0 ∨ (1 : Int) = 1) := by decide
/-- Under either policy. -/
theorem witness_ErrorLeavesTheBlockUnchanged :
    Instr.isRequest (.setCursor 40 0) = true ∧
    (∃ t, (ready plain).run = .idle ∧ exec (.setCursor 40 0) (ready plain) = .next t ∧
      t.resp = (ready plain).resp ++ [.err .invalidCursor] ∧ (ready plain).cfg.errorPolicy = .report) ∧
    ∃ t, (ready (config .halt false [])).run = .idle ∧
      exec (.setCursor 40 0) (ready (config .halt false [])) = .next t ∧
      t.resp = (ready (config .halt false [])).resp ++ [.err .invalidCursor] ∧
      (ready (config .halt false [])).cfg.errorPolicy = .halt :=
  ⟨rfl, ⟨_, rfl, rfl, rfl, rfl⟩, ⟨_, rfl, rfl, rfl, rfl⟩⟩
theorem witness_RequestBeforeInitFaultsNotReady :
    Instr.isRequest .clear = true ∧ Instr.isInit .clear = false ∧ State.reset.run = .idle ∧
    State.reset.phase = .uninit := by decide
theorem witness_SecondInitFaultsAlreadyInitialized : (ready plain).run = .idle ∧ (ready plain).phase = .ready := by decide
theorem witness_ReservedOpcodeFaultsIllegalRequest :
    (∀ op ∈ [0, 12, 15], ({ State.reset with port := [op] } : State).port = op :: [] ∧
      op < 16 ∧ (op = 0 ∨ 12 ≤ op)) ∧
    State.reset.run = .idle := by decide
/-- Each of the two sides of the equivalence holds somewhere. -/
theorem witness_OnlyAFaultedBlockStopsWithItsFault :
    step { State.reset with run := .faulted .notReady } = .fault .notReady ∧
    ({ State.reset with run := .faulted .notReady } : State).run = .faulted .notReady := ⟨rfl, rfl⟩
/-- One step for each fault. -/
theorem witness_FaultsComeOnlyFromMisuse :
    (∃ t, step (State.reset.issue .clear) = .next t ∧ t.run = .faulted .notReady) ∧
    (∃ t, step ((ready plain).issue (.init 0 0 true)) = .next t ∧ t.run = .faulted .alreadyInitialized) ∧
    ∃ t, step { State.reset with port := [0xC] } = .next t ∧ t.run = .faulted .illegalRequest :=
  ⟨⟨_, rfl, rfl⟩, ⟨_, rfl, rfl⟩, ⟨_, rfl, rfl⟩⟩
theorem witness_RequestIsNotAcceptedWhileBusyOrHalted :
    Instr.isRequest .clear = true ∧ (busy []).run = .busy ∧
    ∃ k, ({ ready plain with run := .halted .invalidSlot } : State).run = .halted k := ⟨rfl, rfl, _, rfl⟩
theorem witness_StepRunsTheDecodedRequest :
    ({ State.reset with port := [0x1, 0, 0, 1, 6] } : State).run = .idle ∧
    decode .request ({ State.reset with port := [0x1, 0, 0, 1, 6] } : State).port = .ok (.init 0 0 true, [6]) := by
  decide
theorem witness_StepPerformsTheHeadMicroOperation :
    (busy [.latch]).run = .busy ∧ (busy [.latch]).seq = .latch :: [] := by decide
theorem witness_EmptySequenceCompletesTheRequest : (busy []).run = .busy ∧ (busy []).seq = [] := by decide
theorem witness_WaitingAndHaltedBlocksDoNotChange :
    State.reset.RunEnded ∧ State.RunEnded { ready plain with run := .halted .invalidSlot } :=
  ⟨.inl ⟨rfl, rfl⟩, .inr ⟨_, rfl⟩⟩
/-- A request in flight with micro-operations left, one with none, and a number of steps at each end of the range. -/
theorem witness_RequestInFlightRunsToCompletion :
    (busy [.latch]).run = .busy ∧ 0 ≤ (busy [.latch]).seq.length ∧ 1 ≤ (busy [.latch]).seq.length ∧
    (busy []).run = .busy := by decide

/-! #### States of the invariants -/

theorem ready_inv (c : Config) : (ready c).Inv where
  seq_only_while_busy := fun _ => rfl
  unbound_undriven := fun h => by cases h
  bound_driven := fun _ g => by cases g <;> simp [ready, PinLevels.get]
  strobe_low := fun _ => rfl
  ready_bound := fun _ => by simp [ready]
  uninit_unbound := fun h => by cases h
  bind_first := fun h => by cases h
  bind_once := fun _ => by simp [ready]
  pins_from_trace := rfl

theorem reset_inv (c : Config) : (State.resetWith c).Inv where
  seq_only_while_busy := fun _ => rfl
  unbound_undriven := fun _ g => get_undriven g
  bound_driven := fun h => absurd rfl h
  strobe_low := fun h => absurd rfl h
  ready_bound := fun h => by cases h
  uninit_unbound := fun _ _ => rfl
  bind_first := fun h => by cases h
  bind_once := fun h => absurd rfl h
  pins_from_trace := rfl

/-- The invariant does not read the port. -/
theorem inv_port {s : State} (h : s.Inv) (words : List Nat) : State.Inv { s with port := words } :=
  ⟨h.1, h.2, h.3, h.4, h.5, h.6, h.7, h.8, h.9⟩

/-- A READY block with a request and one more word at its port. -/
def asked (i : Instr) : State := { ready plain with port := encode i ++ [6] }

/-- A block in UNINIT with an INIT at its port. -/
def asksInit : State := { State.reset with port := encode (.init 0 0 true) ++ [6] }

theorem witness_InitEndsReadyWithFourFramesOnThePins :
    asksInit.Inv ∧ asksInit.FramesAligned ∧ asksInit.run = .idle ∧ asksInit.phase = .uninit ∧
    asksInit.port = encode (.init 0 0 true) ++ [6] ∧ resolvePins asksInit.cfg 0 0 = .ok pins :=
  ⟨inv_port (reset_inv _) _, rfl, rfl, rfl, rfl, rfl⟩
theorem witness_PlannedFramesAppearOnThePins :
    (asked .clear).Inv ∧ (asked .clear).FramesAligned ∧ (asked .clear).run = .idle ∧
    (asked .clear).port = encode .clear ++ [6] ∧ Instr.isRequest .clear = true ∧
    exec .clear { asked .clear with port := [6] } =
      .next { asked .clear with port := [6], run := .busy, seq := frames (asked .clear).cfg [(false, 0x01)] } :=
  ⟨inv_port (ready_inv _) _, rfl, rfl, rfl, rfl, rfl⟩
theorem witness_SetCursorCommandAppearsOnThePins :
    (asked (.setCursor 39 1)).Inv ∧ (asked (.setCursor 39 1)).FramesAligned ∧ (asked (.setCursor 39 1)).run = .idle ∧
    (asked (.setCursor 39 1)).phase = .ready ∧ (asked (.setCursor 39 1)).port = encode (.setCursor 39 1) ++ [6] ∧
    (0 : Int) ≤ 39 ∧ (39 : Int) < 40 ∧ ((1 : Int) = 0 ∨ (1 : Int) = 1) :=
  ⟨inv_port (ready_inv _) _, rfl, rfl, rfl, rfl, by decide, by decide, by decide⟩
theorem witness_WriteStringAppearsOnThePins :
    (asked (.writeString [0, 255])).Inv ∧ (asked (.writeString [0, 255])).FramesAligned ∧
    (asked (.writeString [0, 255])).run = .idle ∧ (asked (.writeString [0, 255])).phase = .ready ∧
    (asked (.writeString [0, 255])).port = encode (.writeString [0, 255]) ++ [6] ∧
    ∀ code ∈ ([0, 255] : Text), code ≤ 0xFF :=
  ⟨inv_port (ready_inv _) _, rfl, rfl, rfl, rfl, by decide⟩
theorem witness_TwoClearsAreIdempotent :
    State.Inv { ready plain with port := [6, 6] } ∧ State.FramesAligned { ready plain with port := [6, 6] } ∧
    (ready plain).run = .idle ∧ (ready plain).phase = .ready ∧
    ({ ready plain with port := [6, 6] } : State).port = encode .clear ++ encode .clear ++ [] :=
  ⟨inv_port (ready_inv _) _, rfl, rfl, rfl, rfl⟩
/-- A step of an INIT being accepted. -/
theorem witness_EveryStepKeepsTheInvariant : asksInit.Inv ∧ ∃ t, step asksInit = .next t ∧ t.run = .busy :=
  ⟨inv_port (reset_inv _) _, _, rfl, rfl⟩
theorem witness_EveryStepKeepsFramesWhole :
    (asked .clear).Inv ∧ (asked .clear).FramesAligned ∧ ∃ t, step (asked .clear) = .next t ∧ t.run = .busy :=
  ⟨inv_port (ready_inv _) _, rfl, _, rfl, rfl⟩
/-- The premise inside `LinesDistinct` holds too. -/
theorem witness_EveryStepKeepsBoundLinesDistinct :
    asksInit.LinesDistinct ∧ asksInit.cfg.wellFormed = true ∧ ∃ t, step asksInit = .next t ∧ t.run = .busy :=
  ⟨fun _ => ⟨fun p h => (by cases h), fun m h => (by cases h)⟩, by decide, _, rfl, rfl⟩
theorem witness_BacklightIsInitsOperandEverAfter :
    State.reset.Inv ∧ State.reset.run = .idle ∧
    ∃ u t, exec (.init 0 0 true) State.reset = .next u ∧ u.run = .busy ∧ runSteps (0 + 1) u = .next t :=
  ⟨reset_inv _, rfl, _, _, rfl, rfl, rfl⟩
/-- Each clause: a READY block, a block that becomes READY, and a block with its lines bound. -/
theorem witness_PhaseAndBindingAreWrittenOnce :
    ((ready plain).Inv ∧ (∃ t, step (ready plain) = .next t) ∧ (ready plain).phase = .ready ∧
      (ready plain).bound = some pins) ∧
    State.Inv { ready plain with phase := .uninit, run := .busy } ∧
    ∃ t, step { ready plain with phase := .uninit, run := .busy } = .next t ∧ t.phase = .ready := by
  refine ⟨⟨ready_inv _, ⟨_, rfl⟩, rfl, rfl⟩, ?_, _, rfl, rfl⟩
  have h := ready_inv plain
  exact ⟨fun a => absurd rfl a, h.2, h.3, h.4, fun a => (by cases a), fun _ a => absurd rfl a,
    fun _ a => (by cases a), h.8, h.9⟩
theorem witness_TraceAndResponsesOnlyGrow : ∃ t, step (busy [.latch]) = .next t ∧ t.seq = [] := ⟨_, rfl, rfl⟩
theorem witness_PinsChangeOnlyWhileBusy :
    (asked .clear).run ≠ .busy ∧ ∃ t, step (asked .clear) = .next t ∧ t.run = .busy :=
  ⟨by decide, _, rfl, rfl⟩
/-- Two blocks with other draws, past and to come. -/
theorem witness_DwellsChangeNothingButHoldDurations :
    State.timeless { busy [.latch] with trace := [.bind true, .hold 7], draws := 5, source := 3 } =
      State.timeless { busy [.latch] with trace := [.bind true, .hold 9] } ∧
    ∃ t, step { busy [.latch] with trace := [.bind true, .hold 9] } = .next t ∧ t.draws = 1 :=
  ⟨rfl, _, rfl, rfl⟩
/-- Each clause: a LEVELS before an E_RISE, an E_FALL before a LEVELS, an E_FALL before an E_RISE. -/
theorem witness_EventTimesKeepTheMinima (l : Level) :
    (∃ post t u, timeline plain 0 0 (Clock.start 0) [.levels l l l l l, .eRise] =
      [] ++ (t, .levels l l l l l) :: [] ++ (u, .eRise) :: post) ∧
    (∃ post t u, timeline plain 0 0 (Clock.start 0) [.eFall, .levels l l l l l] =
      [] ++ (t, .eFall) :: [] ++ (u, .levels l l l l l) :: post) ∧
    ∃ mid post t u, timeline plain 0 0 (Clock.start 0) [.eFall, .levels l l l l l, .eRise] =
      [] ++ (t, .eFall) :: [mid] ++ (u, .eRise) :: post :=
  ⟨⟨_, _, _, rfl⟩, ⟨_, _, _, rfl⟩, ⟨_, _, _, _, rfl⟩⟩
/-- A READY block that has strobed once. -/
def strobed : State := { ready plain with trace := [.bind true, .eRise, .hold 1000, .eFall] }
/-- The second clause at the boundary: reset exactly 40 ms after power-on. -/
theorem witness_PowerOnPremiseCoversEveryStrobe :
    (∃ t first, runSteps 1 strobed = .next t ∧ strobed.firstRise 0 = some first) ∧
    PowerOnSettled 0 40000 strobed ∧ ∃ u, (u, PinEvent.eRise) ∈ strobed.timeline 40000 := by
  refine ⟨⟨_, _, rfl, rfl⟩, fun first h => ?_, _, List.mem_cons_of_mem _ List.mem_cons_self⟩
  have hm : (first, PinEvent.eRise) ∈ strobed.timeline 40000 := by
    cases h
    exact List.mem_cons_of_mem _ List.mem_cons_self
  exact (Nat.zero_add _).symm ▸ timeline_starts_after hm
theorem witness_EncodeInvertsDecode :
    decode .request [0x7, 1, 2, 6] = .ok (.setCursor (-1) 1, [6]) ∧
    decode .micro [0x1F] = .ok (.setLevels true true true true true, []) := by
  decide
/-- Two blocks with separate lines, both with a step that binds or runs. -/
def pair : System :=
  ⟨[busy [.latch], { ready plain with run := .busy, bound := some ⟨10, 11, 12, 13, 14, 15, 16⟩, seq := [.latch] }]⟩
theorem witness_BlocksAreIndependent :
    (0 : Nat) ≠ 1 ∧ (∀ s ∈ pair.blocks, s.Inv) ∧ ∃ a ab, pair.stepBlock 0 = .next a ∧ a.stepBlock 1 = .next ab := by
  refine ⟨by decide, fun s hs => ?_, _, _, rfl, rfl⟩
  have h := ready_inv plain
  simp only [pair, List.mem_cons, List.not_mem_nil, or_false] at hs
  rcases hs with rfl | rfl <;>
    exact ⟨fun a => absurd rfl a, fun a => (by cases a), fun _ => h.3 (by simp [ready]), fun _ => rfl,
      fun _ b => (by cases b), fun a => (by cases a), fun _ a => (by cases a),
      fun _ m hm => (by simp_all [busy, MicroOp.isBind]), rfl⟩
/-- A block whose next micro-operation binds a line the other has bound: line 6 alone, the last of both. -/
theorem witness_SharedLinesAreRefused :
    ∃ (sys : System) (s t u : State) (p q : Pins) (h : Handle), (0 : Nat) ≠ 1 ∧
      sys.blocks[1]? = some s ∧ step { s with source := 1 } = .next t ∧ t.bound = some p ∧ sys.blocks[0]? = some u ∧ u.bound = some q ∧
      h ∈ p.toList ∧ h ∈ q.toList :=
  ⟨⟨[ready plain, { State.reset with run := .busy, seq := [.bind true ⟨10, 11, 12, 13, 14, 15, 6⟩] }]⟩,
    _, _, _, ⟨10, 11, 12, 13, 14, 15, 6⟩, pins, 6, by decide, rfl, rfl, rfl, rfl, rfl, by decide, by decide⟩

end Sys2Proof.Tests
end

section
/-! PROOFS. The statements of spec/10_state.md: reset (R39), the end of a request with an error (R37) and BACKLIGHT (R36). -/

namespace Sys2Proof.Machine

/-! ### Runs -/

/-- What every step keeps, every run keeps. -/
theorem runSteps_keeps {P : State → Prop} (hstep : ∀ s t : State, P s → step s = .next t → P t)
    {n : Nat} {s t : State} (hs : P s) (h : runSteps n s = .next t) : P t := by
  induction n generalizing s with
  | zero => cases h; exact hs
  | succ n ih =>
    simp only [runSteps] at h
    split at h
    next u hu => exact ih (hstep s u hs hu) h
    next => cases h
    next => cases h

/-- HALTED is final (R25). -/
theorem runSteps_halted {k : ErrorKind} {s : State} (hr : s.run = .halted k) (n : Nat) :
    runSteps n s = .next s := by
  have hstep : step s = .next s := by simp only [step, hr]
  induction n with
  | zero => rfl
  | succ n ih => rw [runSteps_succ n hstep, ih]

/-! ### Reset -/

/-- Settles O55: each field is the update lemma of reset, and State.reset is reset under Config.reference. -/
theorem resetIsTheSpecsReset : Obligations.ResetIsTheSpecsReset := by
  intro c
  exact ⟨fun g => by rw [resetWith_pin, get_undriven], resetWith_bound c, resetWith_phase c, resetWith_run c,
    resetWith_seq c, resetWith_trace c, resetWith_resp c, Config.reference, rfl⟩

/-! ### Errors -/

/-- A request of an IDLE block that returns an error status ended by `raiseError`: no other answer appends one. -/
theorem exec_request_error {i : Instr} {s t : State} {k : ErrorKind} (hq : i.isRequest = true)
    (hr : s.run = .idle) (h : exec i s = .next t) (hresp : t.resp = s.resp ++ [.err k]) : t = raiseError k s := by
  rcases exec_request_next hq h with
    ⟨-, ⟨-, -, rfl⟩ | ⟨-, -, rfl⟩⟩ | ⟨-, k', -, rfl⟩ | ⟨-, -, -, ops, -, rfl⟩ | ⟨hbusy | ⟨k', hhalted⟩, -⟩
  · simp at hresp
  · simp at hresp
  · have hk : k' = k := by simpa using hresp
    rw [hk]
  · simp at hresp
  · simp [hr] at hbusy
  · simp [hr] at hhalted

/-- Settles O23: the request ended by `raiseError`, and a HALTED block runs to itself. -/
theorem errorLeavesTheBlockUnchanged : Obligations.ErrorLeavesTheBlockUnchanged := by
  intro i s t k hq hr h hresp
  obtain rfl := exec_request_error hq hr h hresp
  refine ⟨rfl, rfl, rfl, rfl, rfl, rfl, rfl, rfl, rfl, raiseError_run_report k s, fun hhalt => ?_⟩
  have hrun := raiseError_run_halt k s hhalt
  exact ⟨hrun, runSteps_halted hrun⟩

/-! ### BACKLIGHT -/

/-- Events without a BIND leave BACKLIGHT alone (R23, R36). -/
theorem replayFrom_bl {evs : List PinEvent} (h : ∀ ev ∈ evs, ∀ bl, ev ≠ .bind bl) (p : PinLevels) :
    (replayFrom p evs).bl = p.bl := by
  induction evs generalizing p with
  | nil => rfl
  | cons ev evs ih =>
    obtain ⟨hev, hevs⟩ := List.forall_mem_cons.mp h
    rw [replayFrom_cons, ih hevs, applyEvent_bl p ev hev]

/-- Only the micro-operation BIND emits a BIND event. -/
theorem microEvents_no_bind {m : MicroOp} (hm : m.isBind = false) (c : Config) (source n : Nat) :
    ∀ ev ∈ microEvents c source n m, ∀ bl, ev ≠ .bind bl := by
  cases m with
  | setLevels => simp [microEvents]
  | latch => simp [microEvents]
  | settle rs b =>
    simp only [microEvents]
    split <;> simp
  | bind => cases hm

/-- A micro-operation other than BIND leaves BACKLIGHT alone. -/
theorem microResult_bl {m : MicroOp} (hm : m.isBind = false) (rest : List MicroOp) (s : State) :
    (microResult m rest s).pin.bl = s.pin.bl :=
  replayFrom_bl (microEvents_no_bind hm s.cfg s.source s.draws) s.pin

/-- INIT plans the BIND of its own operand, then its four frames (R153). -/
theorem planInit_ok {board : BoardKind} {socket : SocketId} {bl : Level} {c : Config} {ops : List MicroOp}
    (h : planInit board socket bl c = .ok ops) : ∃ p, ops = .bind bl p :: frames c initBytes := by
  unfold planInit at h
  cases hr : resolvePins c board socket with
  | error k => simp [hr, bind, Except.bind] at h
  | ok p => exact ⟨p, by simpa [hr, bind, Except.bind] using h.symm⟩

/-- BACKLIGHT is at `bl` for good: no BIND is pending, and none can be planned, for a block with no request in flight is
READY, where INIT is a fault (R221). -/
structure State.BacklightFixed (bl : Level) (s : State) : Prop where
  level : s.pin.bl = .level bl
  no_bind : ∀ m ∈ s.seq, m.isBind = false
  ready_unless_busy : s.run ≠ .busy → s.phase = .ready

/-- A change of other fields of a block with no request in flight. -/
theorem State.BacklightFixed.of_same_pin_seq_phase {bl : Level} {s t : State} (h : s.BacklightFixed bl)
    (hr : s.run ≠ .busy) (hpin : t.pin = s.pin) (hseq : t.seq = s.seq) (hphase : t.phase = s.phase) :
    t.BacklightFixed bl where
  level := hpin ▸ h.level
  no_bind := hseq ▸ h.no_bind
  ready_unless_busy := fun _ => hphase ▸ h.ready_unless_busy hr

/-- A READY block accepts no INIT, so what a request loads holds no BIND. -/
theorem exec_request_keeps_backlightFixed {bl : Level} {i : Instr} {s t : State} (hq : i.isRequest = true)
    (hs : s.BacklightFixed bl) (hr : s.run = .idle) (h : exec i s = .next t) : t.BacklightFixed bl := by
  have hidle : s.run ≠ .busy := by simp [hr]
  rcases exec_request_next hq h with
    ⟨-, ⟨-, -, rfl⟩ | ⟨-, -, rfl⟩⟩ | ⟨-, k, -, rfl⟩ | ⟨-, hinit, -, ops, hops, rfl⟩ | ⟨-, rfl⟩
  · exact hs.of_same_pin_seq_phase hidle rfl rfl rfl
  · exact hs.of_same_pin_seq_phase hidle rfl rfl rfl
  · exact hs.of_same_pin_seq_phase hidle rfl rfl rfl
  · rcases requestPlan_ok hq hops with ⟨hi, -⟩ | ⟨-, fs, rfl⟩
    · have huninit := hinit hi
      simp [hs.ready_unless_busy hidle] at huninit
    · exact ⟨hs.level, frames_no_bind s.cfg fs, fun hbusy => absurd rfl hbusy⟩
  · exact hs

theorem step_keeps_backlightFixed {bl : Level} (s t : State) (hs : s.BacklightFixed bl)
    (h : step s = .next t) : t.BacklightFixed bl := by
  rcases step_next h with ⟨-, rfl⟩ | ⟨-, -, rfl⟩ | ⟨m, rest, hr, hseq, rfl⟩ | ⟨-, -, rfl⟩ |
    ⟨i, rest, hr, hf, he⟩ | ⟨hr, -, rfl⟩
  · exact hs
  · exact ⟨hs.level, hs.no_bind, fun _ => rfl⟩
  · obtain ⟨hm, hrest⟩ := List.forall_mem_cons.mp (hseq ▸ hs.no_bind)
    exact ⟨(microResult_bl hm rest s).trans hs.level, hrest, fun hbusy => absurd hr hbusy⟩
  · exact hs
  · have hport : State.BacklightFixed bl { s with port := rest } :=
      hs.of_same_pin_seq_phase (by simp [hr]) rfl rfl rfl
    exact exec_request_keeps_backlightFixed (fetch_isRequest hf) hport hr he
  · exact hs.of_same_pin_seq_phase (by simp [hr]) rfl rfl rfl

/-- The BIND of an INIT fixes BACKLIGHT at its operand: only frames follow it. -/
theorem bind_fixes_backlight {bl : Level} {p : Pins} {rest : List MicroOp} {s : State} (hr : s.run = .busy)
    (hrest : ∀ m ∈ rest, m.isBind = false) : (microResult (.bind bl p) rest s).BacklightFixed bl where
  level := rfl
  no_bind := hrest
  ready_unless_busy := fun hbusy => absurd hr hbusy

/-- An IDLE block that goes BUSY at INIT has loaded INIT's plan. -/
theorem execInit_busy {board : BoardKind} {socket : SocketId} {bl : Level} {s u : State} (hr : s.run = .idle)
    (h : exec (.init board socket bl) s = .next u) (hu : u.run = .busy) :
    ∃ p, u.seq = .bind bl p :: frames s.cfg initBytes := by
  rcases exec_request_next rfl h with
    ⟨-, ⟨-, -, rfl⟩ | ⟨-, -, rfl⟩⟩ | ⟨-, k, -, rfl⟩ | ⟨-, -, -, ops, hops, rfl⟩ | ⟨-, rfl⟩
  · simp at hu
  · simp at hu
  · exact absurd hu (raiseError_not_busy k s)
  · exact planInit_ok hops
  · simp [hr] at hu

/-- Settles O44: the first step performs INIT's BIND, and every later step keeps `State.BacklightFixed`. -/
theorem backlightIsInitsOperandEverAfter : Obligations.BacklightIsInitsOperandEverAfter := by
  intro n board socket bl s u t _ hr hexec hbusy hrun
  obtain ⟨p, hseq⟩ := execInit_busy hr hexec hbusy
  rw [runSteps_busy_head n hbusy hseq] at hrun
  have hbound : (microResult (.bind bl p) (frames s.cfg initBytes) u).BacklightFixed bl :=
    bind_fixes_backlight hbusy (frames_no_bind s.cfg initBytes)
  exact (runSteps_keeps step_keeps_backlightFixed hbound hrun).level

end Sys2Proof.Machine
end

section
/-! PROOFS. Row patterns (R57, R128, R129). -/

namespace Sys2Proof.Machine

/-! ### Binary digits -/

@[simp] theorem binDigit_binChar (k : ErrorKind) (b : Bool) : binDigit k (binChar b) = .ok b.toNat := by
  cases b <;> rfl

/-- A character is read as a number, or refused with the reader's own error. -/
theorem binDigit_cases (k : ErrorKind) (c : Nat) : (∃ v, binDigit k c = .ok v) ∨ binDigit k c = .error k := by
  unfold binDigit
  split
  · exact .inl ⟨0, rfl⟩
  · split
    · exact .inl ⟨1, rfl⟩
    · exact .inr rfl

theorem binDigit_of_ne {c : Nat} (k : ErrorKind) (h0 : c ≠ 0x30) (h1 : c ≠ 0x31) : binDigit k c = .error k := by
  simp [binDigit, h0, h1]

/-! ### The sum of a pattern -/

theorem patternSum_cons_ok {c v r w : Nat} {cs : Text} (hv : binDigit .invalidEncoding c = .ok v)
    (hr : patternSum (w / 2) cs = .ok r) : patternSum w (c :: cs) = .ok (w * v + r) := by
  simp [patternSum, hv, hr, bind, Except.bind]

theorem patternSum_cons_head_error {c : Nat} (w : Nat) (cs : Text)
    (hc : binDigit .invalidEncoding c = .error .invalidEncoding) :
    patternSum w (c :: cs) = .error .invalidEncoding := by
  simp [patternSum, hc, bind, Except.bind]

theorem patternSum_cons_tail_error {w : Nat} {cs : Text} (c : Nat)
    (hcs : patternSum (w / 2) cs = .error .invalidEncoding) :
    patternSum w (c :: cs) = .error .invalidEncoding := by
  rcases binDigit_cases .invalidEncoding c with ⟨v, hv⟩ | hc
  · simp [patternSum, hv, hcs, bind, Except.bind]
  · exact patternSum_cons_head_error w cs hc

/-- A pattern of at most `n` binary characters pairs them in order with `n` weights, each half of the one before. -/
theorem patternSum_map_binChar {bits : List Bool} {n : Nat} (w : Nat) (h : bits.length ≤ n) :
    patternSum w (bits.map binChar) =
      .ok ((bits.zip (List.iterate (· / 2) w n)).map fun x => x.1.toNat * x.2).sum := by
  induction bits generalizing w n with
  | nil => rfl
  | cons b bits ih =>
    cases n with
    | zero => cases h
    | succ n =>
      have hbits : bits.length ≤ n := Nat.le_of_succ_le_succ h
      rw [List.map_cons, patternSum_cons_ok (binDigit_binChar _ b) (ih (w / 2) hbits)]
      simp [List.iterate, Nat.mul_comm]

/-- One bad character anywhere fails the whole pattern. -/
theorem patternSum_error_of_mem {c : Nat} {cs : Text} (w : Nat) (hmem : c ∈ cs) (h0 : c ≠ 0x30) (h1 : c ≠ 0x31) :
    patternSum w cs = .error .invalidEncoding := by
  induction cs generalizing w with
  | nil => cases hmem
  | cons d cs ih =>
    rcases List.mem_cons.mp hmem with rfl | hcs
    · exact patternSum_cons_head_error w cs (binDigit_of_ne _ h0 h1)
    · exact patternSum_cons_tail_error d (ih (w / 2) hcs)

/-! ### The row value -/

theorem binaryPatternToByte_too_short {p : Text} (h : p.length < 5) :
    binaryPatternToByte false p = .error .invalidEncoding :=
  if_pos ⟨h, rfl⟩

/-- A pattern whose length is accepted has the sum of its first five characters as its value. -/
theorem binaryPatternToByte_ok {short : Bool} {p : Text} {v : Nat} (h : 5 ≤ p.length ∨ short = true)
    (hv : patternSum 16 (p.take 5) = .ok v) : binaryPatternToByte short p = .ok (BitVec.ofNat 8 v) := by
  have hlen : ¬ (p.length < 5 ∧ short = false) := by
    rintro ⟨hlt, hshort⟩
    rcases h with hlong | htrue
    · omega
    · simp [hshort] at htrue
  simp [binaryPatternToByte, hlen, hv, bind, Except.bind]

/-- Whether or not short rows are accepted, the error of a bad character is the error of a short row. -/
theorem binaryPatternToByte_error {p : Text} (short : Bool)
    (hp : patternSum 16 (p.take 5) = .error .invalidEncoding) :
    binaryPatternToByte short p = .error .invalidEncoding := by
  unfold binaryPatternToByte
  split
  · rfl
  · simp [hp, bind, Except.bind]

/-- At most five binary characters, with the weights 16, 8, 4, 2, 1 by position (R57). -/
theorem patternSum_weights {bits : List Bool} (h : bits.length ≤ 5) :
    patternSum 16 (bits.map binChar) =
      .ok ((bits.zip [16, 8, 4, 2, 1]).map fun x => x.1.toNat * x.2).sum :=
  patternSum_map_binChar 16 h

theorem binaryPatternToByte_five (short : Bool) (a b c d e : Bool) (tail : Text) :
    binaryPatternToByte short ([a, b, c, d, e].map binChar ++ tail) =
      .ok (BitVec.ofNat 8 (16 * a.toNat + 8 * b.toNat + 4 * c.toNat + 2 * d.toNat + e.toNat)) := by
  have hlen : 5 ≤ ([a, b, c, d, e].map binChar ++ tail).length := by simp
  have htake : ([a, b, c, d, e].map binChar ++ tail).take 5 = [a, b, c, d, e].map binChar := rfl
  rw [binaryPatternToByte_ok (.inl hlen) (htake.symm ▸ patternSum_weights le_rfl)]
  simp [Nat.mul_comm, Nat.add_assoc]

theorem binaryPatternToByte_short_bits {bits : List Bool} (h : bits.length < 5) :
    binaryPatternToByte true (bits.map binChar) =
      .ok (BitVec.ofNat 8 ((bits.zip [16, 8, 4, 2, 1]).map fun x => x.1.toNat * x.2).sum) := by
  have htake : (bits.map binChar).take 5 = bits.map binChar := List.take_of_length_le (by simp; omega)
  exact binaryPatternToByte_ok (.inr rfl) (htake.symm ▸ patternSum_weights h.le)

/-- Settles O20: five characters and fewer are both sums by weight, and a bad character fails the sum. -/
theorem rowPatternsReadFiveWeightedBits : Obligations.RowPatternsReadFiveWeightedBits :=
  ⟨binaryPatternToByte_five, fun _ h => binaryPatternToByte_too_short h,
    fun _ h => binaryPatternToByte_short_bits h,
    fun short _ _ hmem h0 h1 => binaryPatternToByte_error short (patternSum_error_of_mem 16 hmem h0 h1)⟩

end Sys2Proof.Machine
end

section
/-! PROOFS. Levels and waits on the signal bus (spec/40_signal_bus.md R101, R109). -/

namespace Sys2Proof.Machine

/-! ### Emitted events -/

theorem emit_levels (rs d7 d6 d5 d4 : Level) (s : State) :
    emit (.levels rs d7 d6 d5 d4) s =
      { s with
        pin := { s.pin with
          rs := .level rs, d7 := .level d7, d6 := .level d6, d5 := .level d5, d4 := .level d4 }
        trace := s.trace ++ [.levels rs d7 d6 d5 d4] } := rfl

/-- A wait changes no pin (R27). -/
theorem emit_hold (d : Nat) (s : State) : emit (.hold d) s = { s with trace := s.trace ++ [.hold d] } := rfl

/-! ### The wait after a frame -/

theorem settleWait_of_pos {rs : Level} {b : Byte} {s : State} (h : 0 < settleTime s.cfg rs b) :
    settleWait rs b s = { s with trace := s.trace ++ [.hold (settleTime s.cfg rs b)] } :=
  (if_pos h).trans (emit_hold _ s)

theorem settleWait_of_zero {rs : Level} {b : Byte} {s : State} (h : settleTime s.cfg rs b = 0) :
    settleWait rs b s = s :=
  if_neg h.not_gt

/-! ### The micro-operations at the head of `seq` -/

theorem exec_setLevels_head {rs d7 d6 d5 d4 : Level} {rest : List MicroOp} {s : State} (hr : s.run = .busy)
    (hs : s.seq = .setLevels rs d7 d6 d5 d4 :: rest) :
    exec (.setLevels rs d7 d6 d5 d4) s = .next (emit (.levels rs d7 d6 d5 d4) { s with seq := rest }) :=
  performMicro_head hr hs

theorem exec_settle_head {rs : Level} {b : Byte} {rest : List MicroOp} {s : State} (hr : s.run = .busy)
    (hs : s.seq = .settle rs b :: rest) :
    exec (.settle rs b) s = .next (settleWait rs b { s with seq := rest }) :=
  performMicro_head hr hs

/-- Settles O1: SET_LEVELS performs its one LEVELS event, which drives five lines. -/
theorem setLevelsDrivesFiveLinesInOneEvent : Obligations.SetLevelsDrivesFiveLinesInOneEvent := by
  intro rs d7 d6 d5 d4 rest s
  refine ⟨rfl, fun hr hs => ?_⟩
  rw [exec_setLevels_head hr hs, emit_levels]

/-- Settles O3: the wait splits on whether T_SETTLE_AFTER of the frame is above 0. -/
theorem settleWaitsOnlyWhenPositive : Obligations.SettleWaitsOnlyWhenPositive := by
  intro rs b rest s hr hs
  refine ⟨rfl, fun hpos => ?_, fun hzero => ?_⟩
  · rw [exec_settle_head hr hs, settleWait_of_pos (s := { s with seq := rest }) hpos]
  · rw [exec_settle_head hr hs, settleWait_of_zero (s := { s with seq := rest }) hzero]

end Sys2Proof.Machine
end

section
/-! PROOFS. The codec functions of spec/41_codec.md: hex digits (R123) and the five laws (R134). -/

namespace Sys2Proof.Machine

/-! ### Hex digits -/

theorem hexValue_digit {c : Nat} (hlo : 0x30 ≤ c) (hhi : c ≤ 0x39) : hexValue c = .ok (c - 0x30) :=
  if_pos ⟨hlo, hhi⟩

theorem hexValue_upper {c : Nat} (hlo : 0x41 ≤ c) (hhi : c ≤ 0x46) : hexValue c = .ok (c - 0x41 + 10) := by
  have hdigit : ¬ (0x30 ≤ c ∧ c ≤ 0x39) := by omega
  rw [hexValue, if_neg hdigit, if_pos ⟨hlo, hhi⟩]

theorem hexValue_lower {c : Nat} (hlo : 0x61 ≤ c) (hhi : c ≤ 0x66) : hexValue c = .ok (c - 0x61 + 10) := by
  have hdigit : ¬ (0x30 ≤ c ∧ c ≤ 0x39) := by omega
  have hupper : ¬ (0x41 ≤ c ∧ c ≤ 0x46) := by omega
  rw [hexValue, if_neg hdigit, if_neg hupper, if_pos ⟨hlo, hhi⟩]

theorem hexValue_other {c : Nat} (hdigit : ¬ (0x30 ≤ c ∧ c ≤ 0x39)) (hupper : ¬ (0x41 ≤ c ∧ c ≤ 0x46))
    (hlower : ¬ (0x61 ≤ c ∧ c ≤ 0x66)) : hexValue c = .error .invalidEncoding := by
  rw [hexValue, if_neg hdigit, if_neg hupper, if_neg hlower]

/-- Settles O19: one lemma for each range of codes, and one for the codes outside all three. -/
theorem hexValueReadsExactlyTheHexDigits : Obligations.HexValueReadsExactlyTheHexDigits :=
  fun _ => ⟨hexValue_digit, hexValue_upper, hexValue_lower, hexValue_other⟩

/-- A digit below ten is read in the range of '0'..'9', any other in the range of 'A'..'F'. -/
theorem hexValue_hexDigit {d : Nat} (h : d < 16) : hexValue (hexDigit d) = .ok d := by
  by_cases hd : d < 10
  · rw [hexDigit, if_pos hd, hexValue_digit (by omega) (by omega), Nat.add_sub_cancel_left]
  · rw [hexDigit, if_neg hd, hexValue_upper (by omega) (by omega), Nat.add_sub_cancel_left,
      Nat.sub_add_cancel (by omega)]

/-! ### Hex pairs and routing texts -/

theorem decodeHexPair_ok {c0 c1 hi lo : Nat} (h0 : hexValue c0 = .ok hi) (h1 : hexValue c1 = .ok lo) :
    decodeHexPair [c0, c1] = .ok (BitVec.ofNat 8 (16 * hi + lo)) := by
  simp [decodeHexPair, h0, h1, bind, Except.bind]

/-- R134, second law. -/
theorem decodeHexPair_hex2 (b : Byte) : decodeHexPair (hex2 b.toNat) = .ok b := by
  have hhi : b.toNat / 16 < 16 := by omega
  have hlo : b.toNat % 16 < 16 := by omega
  rw [hex2, decodeHexPair_ok (hexValue_hexDigit hhi) (hexValue_hexDigit hlo), Nat.div_add_mod,
    BitVec.ofNat_toNat, BitVec.setWidth_eq]

@[simp] theorem decodeCommandRouting_binChar (rs : Level) : decodeCommandRouting (binChar rs) = .ok rs := by
  cases rs <;> rfl

theorem decodeRoutingText_ok {c2 c3 : Nat} {b : Byte} (rs : Level) (h : decodeHexPair [c2, c3] = .ok b) :
    decodeRoutingText [binChar rs, 0x78, c2, c3] = .ok (rs, b) := by
  simp [decodeRoutingText, h, bind, Except.bind]

/-- R134, third law. -/
theorem decodeRoutingText_hex2 (rs : Level) (b : Byte) :
    decodeRoutingText ([binChar rs, 0x78] ++ hex2 b.toNat) = .ok (rs, b) :=
  decodeRoutingText_ok rs (decodeHexPair_hex2 b)

/-! ### Nibbles -/

theorem getLsbD_toNat (b : Byte) (i : Nat) : (b.getLsbD i).toNat = b.toNat / 2 ^ i % 2 :=
  Nat.toNat_testBit b.toNat i

theorem nibbleHigh_value (b : Byte) : (nibbleHigh b).value = b.toNat / 16 := by
  simp only [nibbleHigh, Nibble.value, getLsbD_toNat]
  omega

theorem nibbleLow_value (b : Byte) : (nibbleLow b).value = b.toNat % 16 := by
  simp only [nibbleLow, Nibble.value, getLsbD_toNat]
  omega

/-- R134, first law. -/
theorem nibbles_rebuild_toNat (b : Byte) : 16 * (nibbleHigh b).value + (nibbleLow b).value = b.toNat := by
  rw [nibbleHigh_value, nibbleLow_value, Nat.div_add_mod]

theorem nibbles_rebuild (b : Byte) :
    BitVec.ofNat 8 (16 * (nibbleHigh b).value + (nibbleLow b).value) = b := by
  rw [nibbles_rebuild_toNat, BitVec.ofNat_toNat, BitVec.setWidth_eq]

/-! ### Raw frames and cursor addresses -/

/-- Nine binary characters are RS and the bits of two nibbles, each most significant first (R55, R127). -/
theorem decodeRawFrame_binChars (rs : Level) (hi lo : Nibble) :
    decodeRawFrame ([rs, hi.b3, hi.b2, hi.b1, hi.b0, lo.b3, lo.b2, lo.b1, lo.b0].map binChar) =
      .ok (rs, hi.value, lo.value) := by
  have hrs : (rs.toNat == 1) = rs := by cases rs <;> rfl
  simp [decodeRawFrame, Nibble.value, hrs, bind, Except.bind]

theorem getLsbD_command_seven (a : Nat) : (0x80#8 ||| BitVec.ofNat 8 a).getLsbD 7 = true := by
  rw [BitVec.getLsbD_or]
  rfl

/-- The command bit 0x80 leaves the seven address bits as they are. -/
theorem getLsbD_command_of_lt {i : Nat} (a : Nat) (h : i < 7) :
    (0x80#8 ||| BitVec.ofNat 8 a).getLsbD i = a.testBit i := by
  have hbit : (0x80#8).getLsbD i = false := by
    interval_cases i <;> rfl
  have hlt : i < 8 := by omega
  rw [BitVec.getLsbD_or, hbit, Bool.false_or, BitVec.getLsbD_ofNat, decide_eq_true hlt, Bool.true_and]

theorem nibbleHigh_command (a : Nat) :
    nibbleHigh (0x80#8 ||| BitVec.ofNat 8 a) = ⟨true, a.testBit 6, a.testBit 5, a.testBit 4⟩ := by
  simp only [nibbleHigh, getLsbD_command_seven, getLsbD_command_of_lt, Nat.reduceLT]

theorem nibbleLow_command (a : Nat) :
    nibbleLow (0x80#8 ||| BitVec.ofNat 8 a) = ⟨a.testBit 3, a.testBit 2, a.testBit 1, a.testBit 0⟩ := by
  simp only [nibbleLow, getLsbD_command_of_lt, Nat.reduceLT]

/-- R134, fourth law: RS = 0, and the '1' before the seven bits is bit 7 of the command byte. -/
theorem decodeRawFrame_bin7 (a : Nat) :
    decodeRawFrame ([0x30] ++ [0x31] ++ bin7 a) =
      .ok (false, (nibbleHigh (0x80#8 ||| BitVec.ofNat 8 a)).value,
        (nibbleLow (0x80#8 ||| BitVec.ofNat 8 a)).value) := by
  rw [nibbleHigh_command, nibbleLow_command]
  exact decodeRawFrame_binChars false ⟨true, a.testBit 6, a.testBit 5, a.testBit 4⟩
    ⟨a.testBit 3, a.testBit 2, a.testBit 1, a.testBit 0⟩

theorem cursorAddress_ok {column row : Int} (h0 : 0 ≤ column) (h40 : column < 40) (hrow : row = 0 ∨ row = 1) :
    cursorAddress column row = .ok (if row = 0 then column.toNat else 64 + column.toNat) := by
  have hr : 0 ≤ row ∧ row ≤ 1 := by omega
  rw [cursorAddress, if_neg (not_not_intro ⟨h0, h40⟩), if_neg (not_not_intro hr)]

/-- R134, fifth law: the fourth law at the position's address. -/
theorem cursor_raw_frame_rebuilds {column row : Int} (h0 : 0 ≤ column) (h40 : column < 40)
    (hrow : row = 0 ∨ row = 1) :
    ∃ addr hi lo, cursorAddress column row = .ok addr ∧
      decodeRawFrame ([0x30] ++ [0x31] ++ bin7 addr) = .ok (false, hi, lo) ∧
      BitVec.ofNat 8 (16 * hi + lo) = 0x80#8 ||| BitVec.ofInt 8 (if row = 0 then column else 64 + column) := by
  refine ⟨_, _, _, cursorAddress_ok h0 h40 hrow, decodeRawFrame_bin7 _, ?_⟩
  have hcast : ((if row = 0 then column.toNat else 64 + column.toNat : Nat) : Int) =
      if row = 0 then column else 64 + column := by
    split <;> omega
  rw [nibbles_rebuild, ← hcast, BitVec.ofInt_natCast]

/-- Settles O21: the five laws of R134, one lemma each. -/
theorem codecLawsHold : Obligations.CodecLawsHold :=
  ⟨nibbles_rebuild_toNat, decodeHexPair_hex2, decodeRoutingText_hex2, fun a _ => decodeRawFrame_bin7 a,
    fun _ _ h0 h40 hrow => cursor_raw_frame_rebuilds h0 h40 hrow⟩

end Sys2Proof.Machine
end

section
/-! PROOFS. Requests that fault (spec/60_exceptions.md R219). -/

namespace Sys2Proof.Machine

/-- A request other than INIT is admitted in READY alone, before its operands are looked at (R150). -/
theorem exec_ready_wrong_phase {i : Instr} {s : State} (hq : i.isRequest = true) (hi : i.isInit = false)
    (hr : s.run = .idle) (hp : s.phase ≠ .ready) : exec i s = .next (recordFault .notReady s) :=
  (exec_ready_eq i s hq hi).trans (acceptRequest_wrong_phase hr hp)

/-- Settles O24: UNINIT is not READY, and `recordFault` changes the run state only. -/
theorem requestBeforeInitFaultsNotReady : Obligations.RequestBeforeInitFaultsNotReady := by
  intro i s hq hi hr huninit
  have hp : s.phase ≠ .ready := by simp [huninit]
  exact exec_ready_wrong_phase hq hi hr hp

end Sys2Proof.Machine
end

section
/-! PROOFS. Computations that can fail, one after the other: when they succeed, and with which errors they end. -/

namespace Sys2Proof

section Except
variable {ε α β : Type} {x : Except ε α} {f : α → Except ε β}

@[simp] theorem except_ok_bind (a : α) (f : α → Except ε β) : (Except.ok a >>= f) = f a := rfl

@[simp] theorem except_error_bind (e : ε) (f : α → Except ε β) : (Except.error e >>= f) = .error e := rfl

theorem except_bind_eq_ok {b : β} : (x >>= f) = .ok b ↔ ∃ a, x = .ok a ∧ f a = .ok b := by
  cases x <;> simp

/-- Every error the computation can end with meets `P`. -/
def ErrorsMeet (P : ε → Prop) (x : Except ε α) : Prop := ∀ e, x = .error e → P e

variable {P : ε → Prop}

theorem errorsMeet_ok (a : α) : ErrorsMeet P (.ok a : Except ε α) := fun _ h => nomatch h

theorem errorsMeet_error {e : ε} (h : P e) : ErrorsMeet P (.error e : Except ε α) := fun _ he => by
  cases he
  exact h

theorem ErrorsMeet.bind (hx : ErrorsMeet P x) (hf : ∀ a, ErrorsMeet P (f a)) : ErrorsMeet P (x >>= f) := by
  cases x with
  | ok a => exact hf a
  | error e => exact errorsMeet_error (hx e rfl)

/-- A computation with one possible error that does not succeed ends with that error. -/
theorem ErrorsMeet.eq_error {k : ε} (hx : ErrorsMeet (· = k) x) (hok : ∀ a, x ≠ .ok a) : x = .error k := by
  cases x with
  | ok a => exact absurd rfl (hok a)
  | error e => rw [hx e rfl]

end Except

end Sys2Proof
end

section
/-! PROOFS. Decoding and encoding are inverse (spec/30_encoding.md): for each reader of operand words, the words it takes
are exactly the encoding of what it answers. -/

namespace Sys2Proof

variable {ws rest : List Nat}

/-! ### Operand words -/

theorem takeWord_eq_ok {w : Nat} : takeWord ws = .ok (w, rest) ↔ ws = w :: rest := by
  cases ws <;> simp [takeWord]

theorem takeByte_eq_ok {b : Byte} : takeByte ws = .ok (b, rest) ↔ ws = b.toNat :: rest := by
  cases ws with
  | nil => simp [takeByte]
  | cons w ws =>
    by_cases hw : w < 256
    · have hb : BitVec.ofNat 8 w = b ↔ w = b.toNat := by
        rw [← BitVec.toNat_inj, BitVec.toNat_ofNat, Nat.mod_eq_of_lt hw]
      simp [takeByte, hw, hb]
    · have hb : w ≠ b.toNat := by omega
      simp [takeByte, hw, hb]

theorem takeLevel_eq_ok {v : Level} : takeLevel ws = .ok (v, rest) ↔ ws = v.toNat :: rest := by
  cases ws with
  | nil => simp [takeLevel]
  | cons w ws =>
    rcases w with _ | _ | w <;> cases v <;> simp [takeLevel]

theorem intOfWord_eq {w : Nat} {n : Int} : intOfWord w = n ↔ w = wordOfInt n := by
  cases n <;> simp only [intOfWord, wordOfInt, Int.ofNat_eq_natCast] <;> split <;> omega

theorem takeInt_eq_ok {n : Int} : takeInt ws = .ok (n, rest) ↔ ws = wordOfInt n :: rest := by
  cases ws <;> simp [takeInt, intOfWord_eq]

/-! ### Texts and lists of texts -/

theorem takeWords_eq_ok {n : Nat} {text : Text} :
    takeWords n ws = .ok (text, rest) ↔ n = text.length ∧ ws = text ++ rest := by
  induction n generalizing ws rest text with
  | zero => cases text <;> simp [takeWords]
  | succ n ih =>
    cases ws with
    | nil => cases text <;> simp [takeWords]
    | cons w ws =>
      have hrec : takeWords (n + 1) (w :: ws) =
          (takeWords n ws >>= fun r => .ok (w :: r.1, r.2)) := by
        rw [takeWords]
        cases takeWords n ws <;> rfl
      rw [hrec, except_bind_eq_ok]
      cases text <;> simp [ih, and_left_comm]

theorem takeText_eq_ok {text : Text} : takeText ws = .ok (text, rest) ↔ ws = encodeText text ++ rest := by
  cases ws <;> simp [takeText, encodeText, takeWords_eq_ok]

theorem takeTexts_eq_ok {n : Nat} {rows : List Text} :
    takeTexts n ws = .ok (rows, rest) ↔ n = rows.length ∧ ws = rows.flatMap encodeText ++ rest := by
  induction n generalizing ws rest rows with
  | zero => cases rows <;> simp [takeTexts]
  | succ n ih =>
    have hrec : takeTexts (n + 1) ws =
        (takeText ws >>= fun r => takeTexts n r.2 >>= fun q => .ok (r.1 :: q.1, q.2)) := by
      rw [takeTexts]
      cases takeText ws with
      | error e => rfl
      | ok r => cases h : takeTexts n r.2 <;> simp [h]
    simp only [hrec, except_bind_eq_ok, Prod.exists, takeText_eq_ok, ih]
    cases rows with
    | nil => simp
    | cons row rows =>
      constructor
      · rintro ⟨row', ws', rfl, rows', rest', ⟨rfl, rfl⟩, h⟩
        simp_all
      · rintro ⟨hn, rfl⟩
        exact ⟨row, _, List.append_assoc .., rows, rest, ⟨Nat.succ.inj hn, rfl⟩, rfl⟩

theorem takeRows_eq_ok {rows : List Text} : takeRows ws = .ok (rows, rest) ↔ ws = encodeRows rows ++ rest := by
  cases ws <;> simp [takeRows, encodeRows, takeTexts_eq_ok]

theorem takePins_eq_ok {p : Pins} : takePins ws = .ok (p, rest) ↔ ws = p.toList ++ rest := by
  obtain ⟨rs, d4, d5, d6, d7, e, bl⟩ := p
  unfold takePins
  split <;> simp_all [Pins.toList, and_assoc]

/-! ### Instructions -/

theorem decodeRequest_encode {i : Instr} (hq : i.isRequest = true) (rest : List Nat) :
    decodeRequest (encode i ++ rest) = .ok (i, rest) := by
  cases i with
  | init board socket bl =>
    simp [encode, decodeRequest, takeOperands, takeWord, takeLevel_eq_ok.mpr rfl]
  | sendCmd b => simp [encode, decodeRequest, takeOperands, takeByte_eq_ok.mpr rfl]
  | sendData b => simp [encode, decodeRequest, takeOperands, takeByte_eq_ok.mpr rfl]
  | sendEnc text => simp [encode, decodeRequest, takeOperands, takeText_eq_ok.mpr rfl]
  | sendRaw bits => simp [encode, decodeRequest, takeOperands, takeText_eq_ok.mpr rfl]
  | clear => rfl
  | setCursor column row => simp [encode, decodeRequest, takeOperands, takeInt_eq_ok.mpr rfl]
  | writeChar code => rfl
  | writeString text => simp [encode, decodeRequest, takeOperands, takeText_eq_ok.mpr rfl]
  | defineGlyph slot rows =>
    simp [encode, decodeRequest, takeOperands, takeInt_eq_ok.mpr rfl, takeRows_eq_ok.mpr rfl]
  | drawGlyph slot => simp [encode, decodeRequest, takeOperands, takeInt_eq_ok.mpr rfl]
  | setLevels => cases hq
  | latch => cases hq
  | settle => cases hq
  | bind => cases hq

/-- The word of SET_LEVELS is below 0x20 and its bits are the five levels. -/
theorem setLevels_word (rs d7 d6 d5 d4 : Level) :
    let w := 16 * rs.toNat + 8 * d7.toNat + 4 * d6.toNat + 2 * d5.toNat + d4.toNat
    w < 0x20 ∧ w.testBit 4 = rs ∧ w.testBit 3 = d7 ∧ w.testBit 2 = d6 ∧ w.testBit 1 = d5 ∧ w.testBit 0 = d4 := by
  revert rs d7 d6 d5 d4
  decide

theorem decodeMicro_encode {i : Instr} (hq : i.isRequest = false) (rest : List Nat) :
    decodeMicro (encode i ++ rest) = .ok (i, rest) := by
  cases i with
  | setLevels rs d7 d6 d5 d4 =>
    obtain ⟨hw, h4, h3, h2, h1, h0⟩ := setLevels_word rs d7 d6 d5 d4
    simp only [encode, List.cons_append, decodeMicro, if_pos hw, h4, h3, h2, h1, h0, List.nil_append]
  | latch => rfl
  | settle rs b => simp [encode, decodeMicro, takeLevel_eq_ok.mpr rfl, takeByte_eq_ok.mpr rfl]
  | bind bl p => cases bl <;> simp [encode, decodeMicro, takePins_eq_ok.mpr rfl]
  | init => cases hq
  | sendCmd => cases hq
  | sendData => cases hq
  | sendEnc => cases hq
  | sendRaw => cases hq
  | clear => cases hq
  | setCursor => cases hq
  | writeChar => cases hq
  | writeString => cases hq
  | defineGlyph => cases hq
  | drawGlyph => cases hq

/-- Words that decode as a request are its encoding, then the words left. -/
theorem decodeRequest_ok {i : Instr} (h : decodeRequest ws = .ok (i, rest)) :
    i.isRequest = true ∧ ws = encode i ++ rest := by
  cases ws with
  | nil => cases h
  | cons op ws =>
    refine ⟨Machine.takeOperands_isRequest h, ?_⟩
    simp only [decodeRequest, takeOperands] at h
    split at h <;>
      simp only [except_bind_eq_ok, Prod.exists, takeWord_eq_ok, takeByte_eq_ok, takeLevel_eq_ok, takeInt_eq_ok,
        takeText_eq_ok, takeRows_eq_ok, Except.ok.injEq, Prod.mk.injEq, reduceCtorEq] at h
    case h_1 => obtain ⟨board, _, rfl, socket, _, rfl, bl, _, rfl, rfl, rfl⟩ := h; rfl
    case h_2 => obtain ⟨b, _, rfl, rfl, rfl⟩ := h; rfl
    case h_3 => obtain ⟨b, _, rfl, rfl, rfl⟩ := h; rfl
    case h_4 => obtain ⟨text, _, rfl, rfl, rfl⟩ := h; rfl
    case h_5 => obtain ⟨bits, _, rfl, rfl, rfl⟩ := h; rfl
    case h_6 => obtain ⟨rfl, rfl⟩ := h; rfl
    case h_7 => obtain ⟨column, _, rfl, row, _, rfl, rfl, rfl⟩ := h; rfl
    case h_8 => obtain ⟨code, _, rfl, rfl, rfl⟩ := h; rfl
    case h_9 => obtain ⟨text, _, rfl, rfl, rfl⟩ := h; rfl
    case h_10 => obtain ⟨slot, _, rfl, rows, _, rfl, rfl, rfl⟩ := h; rfl
    case h_11 => obtain ⟨slot, _, rfl, rfl, rfl⟩ := h; rfl

/-- A word below 0x20 is the word of SET_LEVELS with its bits as levels. -/
theorem word_of_testBits {w : Nat} (h : w < 0x20) :
    16 * (w.testBit 4).toNat + 8 * (w.testBit 3).toNat + 4 * (w.testBit 2).toNat + 2 * (w.testBit 1).toNat
      + (w.testBit 0).toNat = w := by
  simp only [Nat.toNat_testBit]
  omega

theorem decodeMicro_ok {i : Instr} (h : decodeMicro ws = .ok (i, rest)) :
    i.isRequest = false ∧ ws = encode i ++ rest := by
  cases ws with
  | nil => cases h
  | cons w ws =>
    simp only [decodeMicro] at h
    split at h
    next hw =>
      cases h
      exact ⟨rfl, by rw [encode, word_of_testBits hw]; rfl⟩
    split at h
    next hw =>
      cases h
      exact ⟨rfl, by rw [hw]; rfl⟩
    split at h
    next hw =>
      simp only [except_bind_eq_ok, Prod.exists, takeByte_eq_ok, takeLevel_eq_ok, Except.ok.injEq, Prod.mk.injEq] at h
      obtain ⟨rs, _, rfl, b, _, rfl, rfl, rfl⟩ := h
      exact ⟨rfl, by rw [hw]; rfl⟩
    split at h
    next hw =>
      simp only [except_bind_eq_ok, Prod.exists, takePins_eq_ok, Except.ok.injEq, Prod.mk.injEq] at h
      obtain ⟨p, _, rfl, rfl, rfl⟩ := h
      exact ⟨rfl, by rcases hw with rfl | rfl <;> rfl⟩
    next => cases h

/-- Settles O52: each reader of operand words answers the operand whose encoding it is given, in either format. -/
theorem decodeInvertsEncode : Obligations.DecodeInvertsEncode := by
  intro i rest
  cases hq : i.isRequest with
  | true => simpa [Instr.format, hq, decode] using decodeRequest_encode hq rest
  | false => simpa [Instr.format, hq, decode] using decodeMicro_encode hq rest

/-- Settles O53: in either format, each operand word taken is the encoding of what was read from it. -/
theorem encodeInvertsDecode : Obligations.EncodeInvertsDecode := by
  intro fmt ws rest i h
  cases fmt with
  | request =>
    obtain ⟨hq, hws⟩ := decodeRequest_ok h
    exact ⟨if_pos hq, hws⟩
  | micro =>
    obtain ⟨hq, hws⟩ := decodeMicro_ok h
    exact ⟨by simp [Instr.format, hq], hws⟩

/-- Settles O54: ten closed words, each decoded by evaluation. -/
theorem writtenWordsDecode : Obligations.WrittenWordsDecode := by
  unfold Obligations.WrittenWordsDecode
  decide

end Sys2Proof
end

section
/-! PROOFS. Frames on the pins (spec/00_scope.md R16, spec/42_init_and_transfer.md R151): the events of a frame, the levels they
leave and the nibbles they latch. -/

namespace Sys2Proof.Machine

/-! ### One frame -/

/-- Every dwell is at least T_E_MIN, 1 ms (R104). -/
theorem dwell_ge (source n : Nat) : 1000 ≤ dwell source n := Nat.le_add_right ..

theorem seqEvents_frame (c : Config) (source n : Nat) (rs : Level) (b : Byte) :
    seqEvents c source n (frame c rs b) =
      [.levels rs (b.getLsbD 7) (b.getLsbD 6) (b.getLsbD 5) (b.getLsbD 4), .eRise, .hold (dwell source n), .eFall,
       .levels rs (b.getLsbD 3) (b.getLsbD 2) (b.getLsbD 1) (b.getLsbD 0), .eRise, .hold (dwell source (n + 1)), .eFall]
      ++ (if settleTime c rs b = 0 then [] else [.hold (settleTime c rs b)]) := by
  by_cases h : settleTime c rs b = 0
  · simp [frame, h, seqEvents, microEvents, microDraws]
  · simp [frame, h, Nat.pos_of_ne_zero h, seqEvents, microEvents, microDraws]

/-- A wait, or none, changes no pin and latches nothing. -/
theorem replayFrom_wait (p : PinLevels) (d : Nat) : replayFrom p (if d = 0 then [] else [.hold d]) = p := by
  split <;> rfl

theorem latchedFrom_wait (p : PinLevels) (d : Nat) : latchedFrom p (if d = 0 then [] else [.hold d]) = [] := by
  split <;> rfl

theorem replayFrom_frame (c : Config) (source n : Nat) (rs : Level) (b : Byte) (p : PinLevels) :
    replayFrom p (seqEvents c source n (frame c rs b)) =
      { p with
        rs := .level rs, d7 := .level (b.getLsbD 3), d6 := .level (b.getLsbD 2)
        d5 := .level (b.getLsbD 1), d4 := .level (b.getLsbD 0), e := .level false } := by
  rw [seqEvents_frame, replayFrom_append, replayFrom_wait]
  rfl

/-- The two nibbles of a frame, the high one first, both with its RS level (R35). -/
def frameNibbles (f : Level × Byte) : List LatchedNibble := [⟨f.1, nibbleHigh f.2⟩, ⟨f.1, nibbleLow f.2⟩]

theorem latchedFrom_frame (c : Config) (source n : Nat) (f : Level × Byte) (p : PinLevels) :
    latchedFrom p (seqEvents c source n (frame c f.1 f.2)) = frameNibbles f := by
  rw [seqEvents_frame, latchedFrom_append, latchedFrom_wait]
  rfl

/-- Settles O6: the events of a frame are written out, with the dwells as the two durations. -/
theorem frameEmitsEightEventsHighNibbleFirst : Obligations.FrameEmitsEightEventsHighNibbleFirst := by
  intro c source n rs b p
  exact ⟨⟨dwell source n, dwell source (n + 1), dwell_ge source n, dwell_ge source (n + 1),
    seqEvents_frame c source n rs b⟩, replayFrom_frame c source n rs b p⟩

/-! ### Several frames -/

/-- Whatever the pins were, frames latch their own nibbles and no other. -/
theorem latchedFrom_frames (c : Config) (source n : Nat) (fs : List (Level × Byte)) (p : PinLevels) :
    latchedFrom p (seqEvents c source n (frames c fs)) = fs.flatMap frameNibbles := by
  induction fs generalizing n p with
  | nil => rfl
  | cons f fs ih => rw [frames_cons, seqEvents_append, latchedFrom_append, latchedFrom_frame, ih, List.flatMap_cons]

theorem wholeFrames_frameNibbles (fs : List (Level × Byte)) : wholeFrames (fs.flatMap frameNibbles) = true := by
  induction fs with
  | nil => rfl
  | cons f fs ih => simp [frameNibbles, wholeFrames, ih]

/-- Two nibbles make the byte again (R16, R134). -/
theorem frameView_frameNibbles (fs : List (Level × Byte)) : frameView (fs.flatMap frameNibbles) = fs := by
  induction fs with
  | nil => rfl
  | cons f fs ih =>
    have hbyte : BitVec.ofNat 8 ((nibbleHigh f.2).value * 16 + (nibbleLow f.2).value) = f.2 := by
      rw [Nat.mul_comm, nibbles_rebuild]
    simp only [List.flatMap_cons, frameNibbles, List.cons_append, List.nil_append, frameView, hbyte]
    rw [ih]

/-- Settles O7: frames latch their nibbles, and each pair of nibbles is its frame. -/
theorem framesLatchTheirBytes : Obligations.FramesLatchTheirBytes := by
  intro c source n fs p
  rw [latchedFrom_frames, frameView_frameNibbles]

end Sys2Proof.Machine
end

section
/-! PROOFS. What a step can do, said in the terms of the state's updates. -/

namespace Sys2Proof.Machine

/-- A request is fetched exactly when it is what the port's words begin with. -/
theorem fetch_request_iff {s : State} {i : Instr} {rest : List Nat} :
    fetch s = .request i rest ↔ i.isRequest = true ∧ s.port = encode i ++ rest := by
  constructor
  · intro h
    unfold fetch at h
    split at h
    next => cases h
    next hport =>
      split at h
      next hd =>
        cases h
        exact hport ▸ decodeRequest_ok hd
      next => cases h
  · rintro ⟨hq, hport⟩
    have hd := decodeRequest_encode hq rest
    rw [← hport] at hd
    unfold fetch
    split
    next hnil => simp [hnil, decodeRequest] at hd
    next w ws hcons => simp [← hcons, hd]

/-- The steps of a block that answer a next state, each with what it needs and what it changes. -/
inductive StepsTo (s : State) : State → Prop
  /-- Nothing to do: IDLE with an empty port, or HALTED. -/
  | stay (hr : s.run ≠ .busy) : StepsTo s s
  | complete (hr : s.run = .busy) (hs : s.seq = []) : StepsTo s (complete s)
  | micro {m : MicroOp} {rest : List MicroOp} (hr : s.run = .busy) (hs : s.seq = m :: rest) :
      StepsTo s (microResult m rest s)
  | fault {f : Fault} {port : List Nat} (hr : s.run = .idle) (hport : port <:+ s.port) :
      StepsTo s (recordFault f { s with port := port })
  | error {k : ErrorKind} {port : List Nat} (hr : s.run = .idle) (hport : port <:+ s.port) :
      StepsTo s (raiseError k { s with port := port })
  /-- A request is accepted in its own phase and its plan loaded. -/
  | plan {i : Instr} {ops : List MicroOp} {port : List Nat} (hr : s.run = .idle) (hport : port <:+ s.port)
      (hq : i.isRequest = true) (hinit : i.isInit = true → s.phase = .uninit)
      (hready : i.isInit = false → s.phase = .ready) (hops : requestPlan s.cfg i = .ok ops) :
      StepsTo s (loadPlan ops { s with port := port })

theorem stepsTo_of_step {s t : State} (h : step s = .next t) : StepsTo s t := by
  rcases step_next h with ⟨⟨k, hr⟩, rfl⟩ | ⟨hr, hs, rfl⟩ | ⟨m, rest, hr, hs, rfl⟩ | ⟨hr, -, rfl⟩ |
    ⟨i, rest, hr, hf, he⟩ | ⟨hr, -, rfl⟩
  · exact .stay (by simp [hr])
  · exact .complete hr hs
  · exact .micro hr hs
  · exact .stay (by simp [hr])
  · obtain ⟨hq, hwords⟩ := fetch_request_iff.mp hf
    have hport : rest <:+ s.port := ⟨encode i, hwords.symm⟩
    rcases exec_request_next hq he with
      ⟨-, ⟨-, -, rfl⟩ | ⟨-, -, rfl⟩⟩ | ⟨-, k, -, rfl⟩ | ⟨-, hinit, hready, ops, hops, rfl⟩ | ⟨hbusy | ⟨k, hhalted⟩, -⟩
    · exact .fault hr hport
    · exact .fault hr hport
    · exact .error hr hport
    · exact .plan hr hport hq hinit hready hops
    · simp [hr] at hbusy
    · simp [hr] at hhalted
  · exact .fault hr (List.suffix_refl s.port)

/-! ### Fields every step keeps -/

theorem stepsTo_cfg {s t : State} (h : StepsTo s t) : t.cfg = s.cfg := by
  cases h <;> rfl

theorem stepsTo_source {s t : State} (h : StepsTo s t) : t.source = s.source := by
  cases h <;> rfl

theorem stepsTo_trace {s t : State} (h : StepsTo s t) : s.trace <+: t.trace := by
  cases h with
  | micro => exact List.prefix_append ..
  | stay => exact List.prefix_refl _
  | complete => exact List.prefix_refl _
  | fault => exact List.prefix_refl _
  | error => exact List.prefix_refl _
  | plan => exact List.prefix_refl _

theorem stepsTo_resp {s t : State} (h : StepsTo s t) : s.resp <+: t.resp := by
  cases h with
  | complete => exact List.prefix_append ..
  | error => exact List.prefix_append ..
  | stay => exact List.prefix_refl _
  | micro => exact List.prefix_refl _
  | fault => exact List.prefix_refl _
  | plan => exact List.prefix_refl _

theorem stepsTo_port {s t : State} (h : StepsTo s t) : t.port <:+ s.port := by
  cases h with
  | fault _ hport => exact hport
  | error _ hport => exact hport
  | plan _ hport => exact hport
  | stay => exact List.suffix_refl _
  | complete => exact List.suffix_refl _
  | micro => exact List.suffix_refl _

/-- Settles O46: one lemma for each field, over the six kinds of step. -/
theorem traceAndResponsesOnlyGrow : Obligations.TraceAndResponsesOnlyGrow := by
  intro s t h
  have hst := stepsTo_of_step h
  exact ⟨stepsTo_trace hst, stepsTo_resp hst, stepsTo_port hst, stepsTo_cfg hst, stepsTo_source hst⟩

/-- Settles O47: the two steps that touch these fields are of a BUSY block. -/
theorem pinsChangeOnlyWhileBusy : Obligations.PinsChangeOnlyWhileBusy := by
  intro s t hidle h
  cases stepsTo_of_step h with
  | complete hr => exact absurd hr hidle
  | micro hr => exact absurd hr hidle
  | stay => exact ⟨rfl, rfl, rfl, rfl, rfl, rfl⟩
  | fault => exact ⟨rfl, rfl, rfl, rfl, rfl, rfl⟩
  | error => exact ⟨rfl, rfl, rfl, rfl, rfl, rfl⟩
  | plan => exact ⟨rfl, rfl, rfl, rfl, rfl, rfl⟩

end Sys2Proof.Machine
end

section
/-! PROOFS. The invariants of spec/10_state.md section 6: they hold at reset, and every step keeps them. -/

namespace Sys2Proof.Machine

/-! ### Pins under events -/

/-- No event takes a driven pin's level away (R21). -/
theorem applyEvent_driven {p : PinLevels} (h : ∀ g, p.get g ≠ .unbound) (ev : PinEvent) :
    ∀ g, (applyEvent p ev).get g ≠ .unbound := by
  intro g
  have hg := h g
  cases ev <;> cases g <;> simp_all [applyEvent, PinLevels.get]

theorem replayFrom_driven {p : PinLevels} (h : ∀ g, p.get g ≠ .unbound) (evs : List PinEvent) :
    ∀ g, (replayFrom p evs).get g ≠ .unbound := by
  induction evs generalizing p with
  | nil => exact h
  | cons ev evs ih => exact ih (applyEvent_driven h ev)

/-- E is low after a micro-operation when it was low before (R34, R106). -/
theorem microEvents_strobe_low {p : PinLevels} (h : p.e = .level false) (c : Config) (source n : Nat) (m : MicroOp) :
    (replayFrom p (microEvents c source n m)).e = .level false := by
  cases m with
  | setLevels => exact h
  | latch => rfl
  | settle rs b =>
    simp only [microEvents]
    split <;> exact h
  | bind => rfl

theorem boundAfter_of_no_bind {m : MicroOp} (h : m.isBind = false) (old : Option Pins) : boundAfter old m = old := by
  cases m with
  | bind => cases h
  | setLevels => rfl
  | latch => rfl
  | settle => rfl

/-! ### The state invariant -/

/-- The invariant of a block with no request in flight reads the pins, the binding, the phase, `seq` and the trace. -/
theorem State.Inv.of_same_fields {s t : State} (h : s.Inv) (hs : s.run ≠ .busy) (ht : t.run ≠ .busy)
    (hpin : t.pin = s.pin) (hbound : t.bound = s.bound) (hphase : t.phase = s.phase) (hseq : t.seq = s.seq)
    (htrace : t.trace = s.trace) : t.Inv where
  seq_only_while_busy := fun _ => hseq ▸ h.seq_only_while_busy hs
  unbound_undriven := by rw [hpin, hbound]; exact h.unbound_undriven
  bound_driven := by rw [hpin, hbound]; exact h.bound_driven
  strobe_low := by rw [hpin, hbound]; exact h.strobe_low
  ready_bound := by rw [hphase, hbound]; exact h.ready_bound
  uninit_unbound := fun hp _ => hbound ▸ h.uninit_unbound (hphase ▸ hp) hs
  bind_first := fun hr => absurd hr ht
  bind_once := by rw [hbound, hseq]; exact h.bind_once
  pins_from_trace := by rw [hpin, htrace]; exact h.pins_from_trace

theorem resetWith_inv (c : Config) : (State.resetWith c).Inv where
  seq_only_while_busy := fun _ => rfl
  unbound_undriven := fun _ => get_undriven
  bound_driven := fun h => absurd rfl h
  strobe_low := fun h => absurd rfl h
  ready_bound := fun h => nomatch h
  uninit_unbound := fun _ _ => rfl
  bind_first := fun h => nomatch h
  bind_once := fun h => absurd rfl h
  pins_from_trace := rfl

/-- A request in flight with an empty `seq` has bound its lines: an INIT's BIND comes first. -/
theorem complete_inv {s : State} (h : s.Inv) (hr : s.run = .busy) (hs : s.seq = []) : (complete s).Inv where
  seq_only_while_busy := fun _ => hs
  unbound_undriven := h.unbound_undriven
  bound_driven := h.bound_driven
  strobe_low := h.strobe_low
  ready_bound := fun _ hb => by
    obtain ⟨bl, p, rest, hseq, -⟩ := h.bind_first hr hb
    simp [hs] at hseq
  uninit_unbound := fun hp => nomatch hp
  bind_first := fun hidle => nomatch hidle
  bind_once := h.bind_once
  pins_from_trace := h.pins_from_trace

theorem microResult_pins_from_trace {s : State} (h : s.pin = replay s.trace) (m : MicroOp) (rest : List MicroOp) :
    (microResult m rest s).pin = replay (microResult m rest s).trace := by
  simp only [microResult, h, replay, replayFrom_append]

/-- BIND drives every pin, with E low. -/
theorem bind_inv {bl : Level} {p : Pins} {rest : List MicroOp} {s : State} (h : s.Inv) (hr : s.run = .busy)
    (hrest : ∀ m ∈ rest, m.isBind = false) : (microResult (.bind bl p) rest s).Inv where
  seq_only_while_busy := fun hn => absurd hr hn
  unbound_undriven := fun hb => nomatch hb
  bound_driven := fun _ g => by cases g <;> exact PinLevel.noConfusion
  strobe_low := fun _ => rfl
  ready_bound := fun _ hb => nomatch hb
  uninit_unbound := fun _ hn => absurd hr hn
  bind_first := fun _ hb => nomatch hb
  bind_once := fun _ => hrest
  pins_from_trace := microResult_pins_from_trace h.pins_from_trace _ _

/-- Any other micro-operation leaves the binding, every pin driven and E low. -/
theorem microResult_inv {m : MicroOp} {rest : List MicroOp} {s : State} (h : s.Inv) (hr : s.run = .busy)
    (hb : s.bound ≠ none) (hm : m.isBind = false) (hrest : ∀ m ∈ rest, m.isBind = false) :
    (microResult m rest s).Inv := by
  have hbound : (microResult m rest s).bound = s.bound := boundAfter_of_no_bind hm s.bound
  exact {
    seq_only_while_busy := fun hn => absurd hr hn
    unbound_undriven := fun hn => absurd (hbound ▸ hn) hb
    bound_driven := fun _ => replayFrom_driven (h.bound_driven hb) _
    strobe_low := fun _ => microEvents_strobe_low (h.strobe_low hb) ..
    ready_bound := fun _ => hbound ▸ hb
    uninit_unbound := fun _ hn => absurd hr hn
    bind_first := fun _ hn => absurd (hbound ▸ hn) hb
    bind_once := fun _ => hrest
    pins_from_trace := microResult_pins_from_trace h.pins_from_trace m rest }

/-- An INIT is accepted only unbound and plans BIND first; any other request is accepted only bound and plans none. -/
theorem loadPlan_inv {i : Instr} {ops : List MicroOp} {s : State} (h : s.Inv) (hr : s.run = .idle)
    (hq : i.isRequest = true) (hinit : i.isInit = true → s.phase = .uninit)
    (hready : i.isInit = false → s.phase = .ready) (hops : requestPlan s.cfg i = .ok ops) (port : List Nat) :
    (loadPlan ops { s with port := port }).Inv where
  seq_only_while_busy := fun hn => absurd rfl hn
  unbound_undriven := h.unbound_undriven
  bound_driven := h.bound_driven
  strobe_low := h.strobe_low
  ready_bound := h.ready_bound
  uninit_unbound := fun _ hn => absurd rfl hn
  bind_first := fun _ hb => by
    rcases requestPlan_ok hq hops with ⟨-, bl, p, rfl⟩ | ⟨hi, -⟩
    · exact ⟨bl, p, _, rfl, frames_no_bind _ _⟩
    · exact absurd hb (h.ready_bound (hready hi))
  bind_once := fun hb => by
    rcases requestPlan_ok hq hops with ⟨hi, -⟩ | ⟨-, fs, rfl⟩
    · exact absurd (h.uninit_unbound (hinit hi) (by simp [hr])) hb
    · exact frames_no_bind _ _
  pins_from_trace := h.pins_from_trace

/-- Settles O41: each kind of step keeps the invariant; the head of `seq` is BIND exactly when no lines are bound. -/
theorem everyStepKeepsTheInvariant : Obligations.EveryStepKeepsTheInvariant := by
  intro s t h hstep
  cases stepsTo_of_step hstep with
  | stay => exact h
  | complete hr hs => exact complete_inv h hr hs
  | @micro m rest hr hs =>
    by_cases hb : s.bound = none
    · obtain ⟨bl, p, rest', hseq, hrest⟩ := h.bind_first hr hb
      obtain ⟨rfl, rfl⟩ := List.cons.inj (hs.symm.trans hseq)
      exact bind_inv h hr hrest
    · obtain ⟨hm, hrest⟩ := List.forall_mem_cons.mp (hs ▸ h.bind_once hb)
      exact microResult_inv h hr hb hm hrest
  | fault hr => exact h.of_same_fields (by simp [hr]) (by simp) rfl rfl rfl rfl rfl
  | error hr => exact h.of_same_fields (by simp [hr]) (raiseError_not_busy _ _) rfl rfl rfl rfl rfl
  | plan hr _ hq hinit hready hops => exact loadPlan_inv h hr hq hinit hready hops _

/-! ### Whole frames -/

/-- The plan of a request latches whole frames, from whatever pins. -/
theorem wholeFrames_requestPlan {c : Config} {i : Instr} {ops : List MicroOp} (hq : i.isRequest = true)
    (h : requestPlan c i = .ok ops) (source n : Nat) (p : PinLevels) :
    wholeFrames (latchedFrom p (seqEvents c source n ops)) = true := by
  rcases requestPlan_ok hq h with ⟨-, bl, pins, rfl⟩ | ⟨-, fs, rfl⟩
  · simp only [seqEvents, microEvents, List.cons_append, List.nil_append, latchedFrom, latchedFrom_frames,
      wholeFrames_frameNibbles]
  · rw [latchedFrom_frames, wholeFrames_frameNibbles]

/-- With no request in flight, what is latched is whole frames. -/
theorem State.FramesAligned.latched_whole {s : State} (h : s.FramesAligned) (hseq : s.seq = []) :
    wholeFrames (latched s.trace) = true := by
  simpa [State.FramesAligned, hseq, seqEvents] using h

/-- Settles O42: a micro-operation moves its events from the pending to the past ones, and a plan is whole frames behind
whole frames. -/
theorem everyStepKeepsFramesWhole : Obligations.EveryStepKeepsFramesWhole := by
  intro s t hinv h hstep
  cases stepsTo_of_step hstep with
  | stay => exact h
  | complete hr hs => exact h
  | micro hr hs => simpa [State.FramesAligned, hs, seqEvents, microResult] using h
  | fault hr => exact h
  | error hr => exact h
  | plan hr _ hq _ _ hops =>
    have hwhole := h.latched_whole (hinv.seq_only_while_busy (by simp [hr]))
    simp only [State.FramesAligned, loadPlan_trace, loadPlan_cfg, loadPlan_source, loadPlan_draws, loadPlan_seq]
    rw [latched_append, wholeFrames_append hwhole]
    exact wholeFrames_requestPlan hq hops ..

/-! ### Distinct lines -/

/-- Every pin set a well-formed PIN_TABLE resolves to has distinct handles (R14). -/
theorem resolvePins_distinct {c : Config} {board : BoardKind} {socket : SocketId} {p : Pins}
    (hc : c.wellFormed = true) (h : resolvePins c board socket = .ok p) : p.distinct = true := by
  unfold resolvePins at h
  split at h
  next => cases h
  next sockets hboard =>
    split at h
    next => cases h
    next hsocket =>
      cases h
      obtain ⟨_, _, htable, -⟩ := List.lookup_eq_some_iff.mp hboard
      obtain ⟨_, _, hsockets, -⟩ := List.lookup_eq_some_iff.mp hsocket
      have hall := List.all_eq_true.mp hc (board, sockets) (by simp [htable])
      exact List.all_eq_true.mp hall (socket, p) (by simp [hsockets])

theorem planInit_eq_ok {board : BoardKind} {socket : SocketId} {bl : Level} {c : Config} {ops : List MicroOp} :
    planInit board socket bl c = .ok ops ↔
      ∃ p, resolvePins c board socket = .ok p ∧ .bind bl p :: frames c initBytes = ops := by
  simp [planInit, except_bind_eq_ok]

/-- Only BIND can be ill-formed. -/
theorem wellFormed_of_no_bind {m : MicroOp} (h : m.isBind = false) : WellFormed m.toInstr = true := by
  cases m with
  | bind => cases h
  | setLevels => rfl
  | latch => rfl
  | settle => rfl

theorem frames_wellFormed (c : Config) (fs : List (Level × Byte)) :
    ∀ m ∈ frames c fs, WellFormed m.toInstr = true :=
  fun m hm => wellFormed_of_no_bind (frames_no_bind c fs m hm)

/-- Under a well-formed configuration every request plans well-formed micro-operations. -/
theorem requestPlan_wellFormed {c : Config} {i : Instr} {ops : List MicroOp} (hc : c.wellFormed = true)
    (hq : i.isRequest = true) (h : requestPlan c i = .ok ops) : ∀ m ∈ ops, WellFormed m.toInstr = true := by
  rcases requestPlan_ok hq h with ⟨hi, -⟩ | ⟨-, fs, rfl⟩
  · cases i with
    | init board socket bl =>
      obtain ⟨p, hp, rfl⟩ := planInit_eq_ok.mp h
      exact List.forall_mem_cons.mpr ⟨resolvePins_distinct hc hp, frames_wellFormed c initBytes⟩
    | _ => cases hi
  · exact frames_wellFormed c fs

/-- The binding a well-formed micro-operation leaves has distinct handles. -/
theorem boundAfter_distinct {m : MicroOp} {old : Option Pins} (hm : WellFormed m.toInstr = true)
    (hold : ∀ p, old = some p → p.distinct = true) : ∀ p, boundAfter old m = some p → p.distinct = true := by
  cases m with
  | bind bl q =>
    rintro _ ⟨⟩
    exact hm
  | setLevels => exact hold
  | latch => exact hold
  | settle => exact hold

theorem resetWith_linesDistinct (c : Config) : (State.resetWith c).LinesDistinct :=
  fun _ => ⟨fun _ h => (nomatch h), fun _ h => (nomatch h)⟩

/-- Settles O43: a plan is well-formed, and so is what BIND binds. -/
theorem everyStepKeepsBoundLinesDistinct : Obligations.EveryStepKeepsBoundLinesDistinct := by
  intro s t h hstep hc
  have hst := stepsTo_of_step hstep
  rw [stepsTo_cfg hst] at hc
  obtain ⟨hbound, hseq⟩ := h hc
  cases hst with
  | stay => exact ⟨hbound, hseq⟩
  | complete => exact ⟨hbound, hseq⟩
  | micro _ hs =>
    obtain ⟨hm, hrest⟩ := List.forall_mem_cons.mp (hs ▸ hseq)
    exact ⟨boundAfter_distinct hm hbound, hrest⟩
  | fault => exact ⟨hbound, hseq⟩
  | error => exact ⟨hbound, hseq⟩
  | plan _ _ hq _ _ hops => exact ⟨hbound, requestPlan_wellFormed hc hq hops⟩

/-- Settles O40: at reset nothing is bound, nothing is pending and nothing is latched. -/
theorem resetMeetsTheInvariants : Obligations.ResetMeetsTheInvariants :=
  fun c => ⟨resetWith_inv c, rfl, resetWith_linesDistinct c⟩

/-! ### The phase and the binding -/

/-- A binding never changes: BIND is pending only while no lines are bound. -/
theorem stepsTo_keeps_binding {s t : State} (hinv : s.Inv) (h : StepsTo s t) {p : Pins} (hp : s.bound = some p) :
    t.bound = some p := by
  cases h with
  | micro _ hs =>
    have hb : s.bound ≠ none := by simp [hp]
    obtain ⟨hm, -⟩ := List.forall_mem_cons.mp (hs ▸ hinv.bind_once hb)
    exact (boundAfter_of_no_bind hm s.bound).trans hp
  | stay => exact hp
  | complete => exact hp
  | fault => exact hp
  | error => exact hp
  | plan => exact hp

/-- The phase changes only at the end of a request, to READY with its OK. -/
theorem stepsTo_phase {s t : State} (h : StepsTo s t) :
    t.phase = s.phase ∨ (t.phase = .ready ∧ s.run = .busy ∧ s.seq = [] ∧ t.resp = s.resp ++ [.ok]) := by
  cases h with
  | complete hr hs => exact .inr ⟨rfl, hr, hs, rfl⟩
  | stay => exact .inl rfl
  | micro => exact .inl rfl
  | fault => exact .inl rfl
  | error => exact .inl rfl
  | plan => exact .inl rfl

/-- Settles O45: only the completing step writes the phase, and only a BIND that finds no lines bound writes the binding. -/
theorem phaseAndBindingAreWrittenOnce : Obligations.PhaseAndBindingAreWrittenOnce := by
  intro s t hinv hstep
  have hst := stepsTo_of_step hstep
  refine ⟨fun hready => ?_, fun huninit hready => ?_, fun p => stepsTo_keeps_binding hinv hst⟩
  · rcases stepsTo_phase hst with hsame | ⟨hready', -⟩
    · exact hsame.trans hready
    · exact hready'
  · rcases stepsTo_phase hst with hsame | ⟨-, hdone⟩
    · simp [hsame, huninit] at hready
    · exact hdone

end Sys2Proof.Machine
end

section
/-! PROOFS. Micro-operations and single steps (spec/40_signal_bus.md R100 to R103, spec/42_init_and_transfer.md R150). -/

namespace Sys2Proof.Machine

/-! ### Micro-operations -/

/-- Settles O2: the dwell is the one drawn. -/
theorem latchStrobesForAtLeastOneMillisecond : Obligations.LatchStrobesForAtLeastOneMillisecond :=
  fun _ s hr hs => ⟨dwell s.source s.draws, dwell_ge s.source s.draws, exec_micro_head (m := .latch) hr hs⟩

/-- Settles O4: the head micro-operation performs its one event. -/
theorem bindTakesAndDrivesTheSevenLines : Obligations.BindTakesAndDrivesTheSevenLines :=
  fun bl p _ _ hr hs => exec_micro_head (m := .bind bl p) hr hs

theorem performMicro_elsewhere {m : MicroOp} {s : State} (h : ¬ (s.run = .busy ∧ s.seq.head? = some m))
    (effect : State → State) : performMicro m effect s = .refused .microOpNotNext :=
  if_neg h

/-- Settles O5: all four are performed through `performMicro`, which asks for the head of `seq` of a BUSY block. -/
theorem microOperationRunsOnlyAsHeadOfBusyBlock : Obligations.MicroOperationRunsOnlyAsHeadOfBusyBlock := by
  intro m s h
  cases m with
  | setLevels => exact performMicro_elsewhere h _
  | latch => exact performMicro_elsewhere h _
  | settle => exact performMicro_elsewhere h _
  | bind => exact performMicro_elsewhere h _

/-! ### Steps -/

/-- Settles O30: what decodes is what is fetched. -/
theorem stepRunsTheDecodedRequest : Obligations.StepRunsTheDecodedRequest :=
  fun _ _ _ hr hd => step_idle_request hr (fetch_request_iff.mpr (decodeRequest_ok hd))

/-- Settles O31: both are the micro-operation's own result. -/
theorem stepPerformsTheHeadMicroOperation : Obligations.StepPerformsTheHeadMicroOperation :=
  fun _ _ _ hr hs => (step_busy_head hr hs).trans (exec_micro_head hr hs).symm

/-- Settles O32: `complete` is that state. -/
theorem emptySequenceCompletesTheRequest : Obligations.EmptySequenceCompletesTheRequest :=
  fun _ hr hs => step_busy_done hr hs

theorem fetch_nothing {s : State} (h : s.port = []) : fetch s = .nothing := by
  simp only [fetch, h]

/-- Settles O33: an empty port fetches nothing, and HALTED is final. -/
theorem waitingAndHaltedBlocksDoNotChange : Obligations.WaitingAndHaltedBlocksDoNotChange := by
  rintro s (⟨hr, hport⟩ | ⟨k, hr⟩)
  · exact step_idle_nothing hr (fetch_nothing hport)
  · simp only [step, hr]

/-- A block that is BUSY or HALTED accepts no request (R71). -/
theorem acceptRequest_busy_or_halted {s : State} (h : s.run = .busy ∨ ∃ k, s.run = .halted k) (w : Phase) (f : Fault)
    (planned : Except ErrorKind (List MicroOp)) : acceptRequest w f planned s = .next s := by
  rcases h with hr | ⟨k, hr⟩ <;> simp only [acceptRequest, hr]

/-- Settles O29: every request is offered through `acceptRequest`. -/
theorem requestIsNotAcceptedWhileBusyOrHalted : Obligations.RequestIsNotAcceptedWhileBusyOrHalted := by
  intro i s hq h
  cases hi : i.isInit with
  | true => exact (exec_init_eq i s hi).trans (acceptRequest_busy_or_halted h _ _ _)
  | false => exact (exec_ready_eq i s hq hi).trans (acceptRequest_busy_or_halted h _ _ _)

end Sys2Proof.Machine
end

section
/-! PROOFS. Statuses and faults (spec/30_encoding.md R76, spec/60_exceptions.md R218 to R222). -/

namespace Sys2Proof

/-! ### Which words are a reserved opcode -/

variable (ws : List Nat)

theorem takeWord_errors : ErrorsMeet (· ≠ .reservedOpcode) (takeWord ws) := by
  cases ws with
  | nil => exact errorsMeet_error DecodeError.noConfusion
  | cons => exact errorsMeet_ok _

theorem takeByte_errors : ErrorsMeet (· ≠ .reservedOpcode) (takeByte ws) := by
  unfold takeByte
  split
  · exact errorsMeet_error DecodeError.noConfusion
  · split
    · exact errorsMeet_ok _
    · exact errorsMeet_error DecodeError.noConfusion

theorem takeLevel_errors : ErrorsMeet (· ≠ .reservedOpcode) (takeLevel ws) := by
  unfold takeLevel
  split
  · exact errorsMeet_error DecodeError.noConfusion
  · split
    · exact errorsMeet_ok _
    · split
      · exact errorsMeet_ok _
      · exact errorsMeet_error DecodeError.noConfusion

theorem takeInt_errors : ErrorsMeet (· ≠ .reservedOpcode) (takeInt ws) := by
  cases ws with
  | nil => exact errorsMeet_error DecodeError.noConfusion
  | cons => exact errorsMeet_ok _

theorem takeWords_errors (n : Nat) : ErrorsMeet (· ≠ .reservedOpcode) (takeWords n ws) := by
  induction n generalizing ws with
  | zero => exact errorsMeet_ok _
  | succ n ih =>
    cases ws with
    | nil => exact errorsMeet_error DecodeError.noConfusion
    | cons w ws =>
      have hrec := ih ws
      unfold takeWords
      split
      next e he => exact errorsMeet_error (hrec e he)
      next => exact errorsMeet_ok _

theorem takeText_errors : ErrorsMeet (· ≠ .reservedOpcode) (takeText ws) := by
  cases ws with
  | nil => exact errorsMeet_error DecodeError.noConfusion
  | cons n ws => exact takeWords_errors ws n

theorem takeTexts_errors (n : Nat) : ErrorsMeet (· ≠ .reservedOpcode) (takeTexts n ws) := by
  induction n generalizing ws with
  | zero => exact errorsMeet_ok _
  | succ n ih =>
    unfold takeTexts
    split
    next e he => exact errorsMeet_error (takeText_errors ws e he)
    next ws' he =>
      split
      next e he => exact errorsMeet_error (ih _ e he)
      next => exact errorsMeet_ok _

theorem takeRows_errors : ErrorsMeet (· ≠ .reservedOpcode) (takeRows ws) := by
  cases ws with
  | nil => exact errorsMeet_error DecodeError.noConfusion
  | cons n ws => exact takeTexts_errors ws n

/-- Operand words raise no `reservedOpcode`: it comes from the opcode alone (R73). -/
theorem takeOperands_reserved_iff (op : Nat) :
    takeOperands op ws = .error .reservedOpcode ↔ op < 16 ∧ (op = 0 ∨ 12 ≤ op) := by
  constructor
  · intro h
    have reader {i : Except DecodeError (Instr × List Nat)} (hi : ErrorsMeet (· ≠ .reservedOpcode) i)
        (h : i = .error .reservedOpcode) : op < 16 ∧ (op = 0 ∨ 12 ≤ op) := absurd rfl (hi _ h)
    unfold takeOperands at h
    split at h
    case h_1 =>
      exact reader ((takeWord_errors _).bind fun _ => (takeWord_errors _).bind fun _ =>
        (takeLevel_errors _).bind fun _ => errorsMeet_ok _) h
    case h_2 => exact reader ((takeByte_errors _).bind fun _ => errorsMeet_ok _) h
    case h_3 => exact reader ((takeByte_errors _).bind fun _ => errorsMeet_ok _) h
    case h_4 => exact reader ((takeText_errors _).bind fun _ => errorsMeet_ok _) h
    case h_5 => exact reader ((takeText_errors _).bind fun _ => errorsMeet_ok _) h
    case h_6 => cases h
    case h_7 => exact reader ((takeInt_errors _).bind fun _ => (takeInt_errors _).bind fun _ => errorsMeet_ok _) h
    case h_8 => exact reader ((takeWord_errors _).bind fun _ => errorsMeet_ok _) h
    case h_9 => exact reader ((takeText_errors _).bind fun _ => errorsMeet_ok _) h
    case h_10 => exact reader ((takeInt_errors _).bind fun _ => (takeRows_errors _).bind fun _ => errorsMeet_ok _) h
    case h_11 => exact reader ((takeInt_errors _).bind fun _ => errorsMeet_ok _) h
    case h_12 =>
      split at h
      · simp only [imp_false] at *
        omega
      · cases h
  · rintro ⟨hop, h⟩
    have hcases : op = 0 ∨ op = 12 ∨ op = 13 ∨ op = 14 ∨ op = 15 := by omega
    rcases hcases with rfl | rfl | rfl | rfl | rfl <;> rfl

end Sys2Proof

namespace Sys2Proof.Machine

/-- A port is malformed by its opcode exactly when the opcode is reserved. -/
theorem fetch_reserved_iff {s : State} :
    fetch s = .malformed .reservedOpcode ↔ ∃ op ws, s.port = op :: ws ∧ op < 16 ∧ (op = 0 ∨ 12 ≤ op) := by
  unfold fetch
  cases hport : s.port with
  | nil => simp
  | cons op ws =>
    trans takeOperands op ws = .error .reservedOpcode
    · cases hd : takeOperands op ws <;> simp [decodeRequest, hd]
    · simp [takeOperands_reserved_iff]

/-- Settles O26: a reserved opcode is fetched as malformed, whatever the phase. -/
theorem reservedOpcodeFaultsIllegalRequest : Obligations.ReservedOpcodeFaultsIllegalRequest :=
  fun op ws _ hr hport hop h => step_idle_malformed hr (fetch_reserved_iff.mpr ⟨op, ws, hport, hop, h⟩)

/-- Settles O25: INIT is admitted in UNINIT alone. -/
theorem secondInitFaultsAlreadyInitialized : Obligations.SecondInitFaultsAlreadyInitialized :=
  fun _ _ _ _ hr hp => acceptRequest_wrong_phase hr (by simp [hp])

/-! ### Where faults come from -/

/-- Offering a request answers a fault only in a FAULTED block, and then the one recorded. -/
theorem acceptRequest_fault {w : Phase} {f g : Fault} {planned : Except ErrorKind (List MicroOp)} {s : State}
    (h : acceptRequest w f planned s = .fault g) : s.run = .faulted g := by
  unfold acceptRequest at h
  split at h
  next =>
    split at h
    · split at h <;> cases h
    · cases h
  next => cases h
  next => cases h
  next hr => cases h; exact hr

theorem exec_request_fault {i : Instr} {s : State} {f : Fault} (hq : i.isRequest = true)
    (h : exec i s = .fault f) : s.run = .faulted f := by
  cases hi : i.isInit with
  | true => exact acceptRequest_fault ((exec_init_eq i s hi).symm.trans h)
  | false => exact acceptRequest_fault ((exec_ready_eq i s hq hi).symm.trans h)

/-- Settles O27: an accepted request, a malformed port and a micro-operation answer no fault. -/
theorem onlyAFaultedBlockStopsWithItsFault : Obligations.OnlyAFaultedBlockStopsWithItsFault := by
  intro s f
  constructor
  · intro h
    unfold step at h
    split at h
    next hr => cases h; exact hr
    next => cases h
    next hr =>
      split at h
      next => cases h
      next hs =>
        rw [exec_micro_head hr hs] at h
        cases h
    next hr =>
      split at h
      next => cases h
      next hf =>
        have hfaulted := exec_request_fault (fetch_isRequest hf) h
        exact hfaulted
      next e _ => cases e <;> cases h
  · intro hr
    simp only [step, hr]

/-- Settles O28: of the steps that answer a next state, only an IDLE block's request in the wrong phase and its reserved
opcode record a fault. -/
theorem faultsComeOnlyFromMisuse : Obligations.FaultsComeOnlyFromMisuse := by
  intro s t f h hf
  rcases step_next h with ⟨⟨k, hr⟩, rfl⟩ | ⟨-, -, rfl⟩ | ⟨m, rest, hr, -, rfl⟩ | ⟨hr, -, rfl⟩ |
    ⟨i, rest, hr, hfetch, he⟩ | ⟨hr, hfetch, rfl⟩
  · simp [hr] at hf
  · simp at hf
  · simp [microResult, hr] at hf
  · simp [hr] at hf
  · obtain ⟨hq, hport⟩ := fetch_request_iff.mp hfetch
    have hd : decode .request s.port = .ok (i, rest) := hport ▸ decodeRequest_encode hq rest
    rcases exec_request_next hq he with
      ⟨-, ⟨hi, hp, rfl⟩ | ⟨hi, hp, rfl⟩⟩ | ⟨-, k, -, rfl⟩ | ⟨-, -, -, ops, -, rfl⟩ | ⟨-, rfl⟩
    · cases hf
      refine ⟨hr, .inr (.inl ⟨rfl, ?_, i, rest, hd, hi⟩)⟩
      cases hphase : s.phase with
      | ready => rfl
      | uninit => exact absurd hphase hp
    · cases hf
      refine ⟨hr, .inl ⟨rfl, ?_, i, rest, hd, hi⟩⟩
      cases hphase : s.phase with
      | uninit => rfl
      | ready => exact absurd hphase hp
    · exact absurd hf (raiseError_not_faulted k _ f)
    · simp at hf
    · simp [hr] at hf
  · cases hf
    exact ⟨hr, .inr (.inr ⟨rfl, fetch_reserved_iff.mp hfetch⟩)⟩

/-! ### Status codes -/

/-- All statuses a request can end with (R76). -/
def statuses : List Status :=
  [.ok, .err .unsupportedBoard, .err .invalidSocket, .err .invalidCursor, .err .invalidFrame, .err .invalidEncoding,
    .err .invalidSlot]

theorem mem_statuses (x : Status) : x ∈ statuses := by
  cases x with
  | ok => simp [statuses]
  | err k => cases k <;> simp [statuses]

theorem statuses_code_injective : ∀ x ∈ statuses, ∀ y ∈ statuses, x.code = y.code → x = y := by decide

theorem statuses_code_ne_seven : ∀ x ∈ statuses, x.code ≠ 7 := by decide

/-- Settles O22: the seven statuses have the codes 0 to 6 in the table's order. -/
theorem statusCodesAreTheTable : Obligations.StatusCodesAreTheTable :=
  ⟨rfl, rfl, rfl, rfl, rfl, rfl, rfl,
    fun x y => statuses_code_injective x (mem_statuses x) y (mem_statuses y),
    fun x => statuses_code_ne_seven x (mem_statuses x)⟩

end Sys2Proof.Machine
end

section
/-! PROOFS. What each request plans, or the error it ends with (spec/42_init_and_transfer.md, spec/43_cursor_text_glyph.md). -/

namespace Sys2Proof.Machine

/-! ### A request offered to an IDLE block in its phase -/

theorem raiseError_eq (k : ErrorKind) (s : State) :
    raiseError k s = { s with
      resp := s.resp ++ [.err k]
      run := if s.cfg.errorPolicy = .halt then .halted k else .idle } := by
  cases h : s.cfg.errorPolicy <;> simp [raiseError, h]

section Ready
variable {i : Instr} {s : State} (hq : i.isRequest = true) (hi : i.isInit = false) (hr : s.run = .idle)
  (hp : s.phase = .ready)
include hq hi hr hp

theorem exec_ready_plans {ops : List MicroOp} (h : requestPlan s.cfg i = .ok ops) :
    exec i s = .next { s with run := .busy, seq := ops } := by
  rw [exec_ready_eq i s hq hi, h]
  exact acceptRequest_ok hr hp

theorem exec_ready_error {k : ErrorKind} (h : requestPlan s.cfg i = .error k) :
    exec i s = .next { s with
      resp := s.resp ++ [.err k]
      run := if s.cfg.errorPolicy = .halt then .halted k else .idle } := by
  rw [exec_ready_eq i s hq hi, h, ← raiseError_eq]
  exact acceptRequest_error hr hp

end Ready

/-- Two requests other than INIT with one plan have one meaning, in every state. -/
theorem exec_eq_of_requestPlan_eq {i j : Instr} {s : State} (hqi : i.isRequest = true) (hi : i.isInit = false)
    (hqj : j.isRequest = true) (hj : j.isInit = false) (h : requestPlan s.cfg i = requestPlan s.cfg j) :
    exec i s = exec j s := by
  rw [exec_ready_eq i s hqi hi, exec_ready_eq j s hqj hj, h]

/-! ### INIT -/

theorem exec_init_plans {board : BoardKind} {socket : SocketId} {p : Pins} {s : State} (bl : Level)
    (hr : s.run = .idle) (hp : s.phase = .uninit) (h : resolvePins s.cfg board socket = .ok p) :
    exec (.init board socket bl) s = .next { s with run := .busy, seq := .bind bl p :: frames s.cfg initBytes } := by
  rw [exec_init_eq _ s rfl, requestPlan, planInit_eq_ok.mpr ⟨p, h, rfl⟩]
  exact acceptRequest_ok hr hp

/-- Settles O8: the four frames of `initBytes` written out one by one. -/
theorem initPlansBindAndFourFrames : Obligations.InitPlansBindAndFourFrames := by
  intro board socket bl sockets p s hr hp hboard hsocket
  have hres : resolvePins s.cfg board socket = .ok p := by simp [resolvePins, hboard, hsocket]
  rw [exec_init_plans bl hr hp hres]
  simp [initBytes]

/-- INIT of a pin set that does not resolve returns the resolution's error. -/
theorem exec_init_error {board : BoardKind} {socket : SocketId} {s : State} {k : ErrorKind} (bl : Level)
    (hr : s.run = .idle) (hp : s.phase = .uninit) (h : resolvePins s.cfg board socket = .error k) :
    exec (.init board socket bl) s = .next { s with
      resp := s.resp ++ [.err k]
      run := if s.cfg.errorPolicy = .halt then .halted k else .idle } := by
  rw [exec_init_eq _ s rfl, ← raiseError_eq]
  have hplan : requestPlan s.cfg (.init board socket bl) = .error k := by simp [requestPlan, planInit, h]
  rw [hplan]
  exact acceptRequest_error hr hp

/-- Settles O9: the board is looked up first, then its socket. -/
theorem initUnresolvedReturnsItsError : Obligations.InitUnresolvedReturnsItsError := by
  intro board socket bl s hr hp
  refine ⟨fun hboard => exec_init_error bl hr hp ?_, fun sockets hboard hsocket => exec_init_error bl hr hp ?_⟩
  · simp [resolvePins, hboard]
  · simp [resolvePins, hboard, hsocket]

/-! ### SEND_CMD, SEND_DATA and CLEAR -/

/-- Settles O10: the three plan without validation. -/
theorem byteRequestsPlanOneFrame : Obligations.ByteRequestsPlanOneFrame :=
  fun _ _ hr hp => ⟨exec_ready_plans rfl rfl hr hp rfl, exec_ready_plans rfl rfl hr hp rfl,
    exec_ready_plans rfl rfl hr hp rfl⟩

/-! ### SEND_ENC -/

theorem hexValue_errors (c : Nat) : ErrorsMeet (· = .invalidEncoding) (hexValue c) := by
  unfold hexValue
  split
  · exact errorsMeet_ok _
  · split
    · exact errorsMeet_ok _
    · split
      · exact errorsMeet_ok _
      · exact errorsMeet_error rfl

theorem decodeHexPair_errors (text : Text) : ErrorsMeet (· = .invalidEncoding) (decodeHexPair text) := by
  unfold decodeHexPair
  split
  · exact (hexValue_errors _).bind fun _ => (hexValue_errors _).bind fun _ => errorsMeet_ok _
  · exact errorsMeet_error rfl

theorem decodeCommandRouting_errors (c : Nat) : ErrorsMeet (· = .invalidEncoding) (decodeCommandRouting c) := by
  unfold decodeCommandRouting
  split
  · exact errorsMeet_ok _
  · split
    · exact errorsMeet_ok _
    · exact errorsMeet_error rfl

theorem decodeRoutingText_errors (text : Text) : ErrorsMeet (· = .invalidEncoding) (decodeRoutingText text) := by
  unfold decodeRoutingText
  split
  · refine (decodeCommandRouting_errors _).bind fun _ => ?_
    split
    · exact (decodeHexPair_errors _).bind fun _ => errorsMeet_ok _
    · exact errorsMeet_error rfl
  · exact errorsMeet_error rfl

theorem decodeHexPair_two_ok {c0 c1 : Nat} {b : Byte} (h : decodeHexPair [c0, c1] = .ok b) :
    ∃ hi lo, hexValue c0 = .ok hi ∧ hexValue c1 = .ok lo := by
  simp only [decodeHexPair, except_bind_eq_ok] at h
  obtain ⟨hi, hhi, lo, hlo, -⟩ := h
  exact ⟨hi, lo, hhi, hlo⟩

theorem decodeCommandRouting_ok {c : Nat} {rs : Level} (h : decodeCommandRouting c = .ok rs) : c = binChar rs := by
  unfold decodeCommandRouting at h
  split at h
  next hc => cases h; exact hc
  next =>
    split at h
    next hc => cases h; exact hc
    next => cases h

/-- A routing text is a routing digit, 'x' and two hex digits (R126). -/
theorem decodeRoutingText_ok_form {text : Text} {r : Level × Byte} (h : decodeRoutingText text = .ok r) :
    ∃ rs c2 c3 hi lo, hexValue c2 = .ok hi ∧ hexValue c3 = .ok lo ∧ text = [binChar rs, 0x78, c2, c3] := by
  unfold decodeRoutingText at h
  split at h
  next c0 c1 c2 c3 =>
    obtain ⟨rs, hrs, h⟩ := except_bind_eq_ok.mp h
    split at h
    next hx =>
      obtain ⟨b, hb, -⟩ := except_bind_eq_ok.mp h
      obtain ⟨hi, lo, hhi, hlo⟩ := decodeHexPair_two_ok hb
      exact ⟨rs, c2, c3, hi, lo, hhi, hlo, by rw [decodeCommandRouting_ok hrs, hx]⟩
    next => cases h
  next => cases h

theorem planSendEnc_ok {text : Text} {rs : Level} {b : Byte} (c : Config) (h : decodeRoutingText text = .ok (rs, b)) :
    planSendEnc text c = .ok (frame c rs b) := by
  simp [planSendEnc, h]

/-- Settles O11: a text decodes exactly when it has the routing form, and `invalidEncoding` is the decoders' only error. -/
theorem sendEncSendsExactlyRoutingTexts : Obligations.SendEncSendsExactlyRoutingTexts := by
  intro s hr hp
  refine ⟨fun rs c2 c3 h l hh hl => ?_, fun text hform => ?_⟩
  · have hd := decodeRoutingText_ok rs (decodeHexPair_ok hh hl)
    exact exec_ready_plans rfl rfl hr hp (planSendEnc_ok s.cfg hd)
  · have hd : decodeRoutingText text = .error .invalidEncoding := by
      refine (decodeRoutingText_errors text).eq_error fun r hok => ?_
      obtain ⟨rs, c2, c3, hi, lo, hhi, hlo, htext⟩ := decodeRoutingText_ok_form hok
      exact hform rs c2 c3 hi lo hhi hlo htext
    exact exec_ready_error rfl rfl hr hp (by simp [requestPlan, planSendEnc, hd])

/-! ### SEND_RAW -/

theorem binDigit_errors (k : ErrorKind) (c : Nat) : ErrorsMeet (· = k) (binDigit k c) := by
  rcases binDigit_cases k c with ⟨v, hv⟩ | he
  · exact hv ▸ errorsMeet_ok v
  · exact he ▸ errorsMeet_error rfl

theorem binDigit_ok {k : ErrorKind} {c v : Nat} (h : binDigit k c = .ok v) : c = 0x30 ∨ c = 0x31 := by
  by_contra hc
  rw [not_or] at hc
  simp [binDigit_of_ne k hc.1 hc.2] at h

theorem decodeRawFrame_errors (bits : Text) : ErrorsMeet (· = .invalidFrame) (decodeRawFrame bits) := by
  unfold decodeRawFrame
  split
  · iterate 9 refine (binDigit_errors _ _).bind fun _ => ?_
    exact errorsMeet_ok _
  · exact errorsMeet_error rfl

theorem decodeRawFrame_ok_form {bits : Text} {r : Level × Nat × Nat} (h : decodeRawFrame bits = .ok r) :
    bits.length = 9 ∧ ∀ c ∈ bits, c = 0x30 ∨ c = 0x31 := by
  unfold decodeRawFrame at h
  split at h
  next =>
    simp only [except_bind_eq_ok] at h
    obtain ⟨v0, h0, v1, h1, v2, h2, v3, h3, v4, h4, v5, h5, v6, h6, v7, h7, v8, h8, -⟩ := h
    simp only [List.forall_mem_cons]
    exact ⟨rfl, binDigit_ok h0, binDigit_ok h1, binDigit_ok h2, binDigit_ok h3, binDigit_ok h4, binDigit_ok h5,
      binDigit_ok h6, binDigit_ok h7, binDigit_ok h8, by simp⟩
  next => cases h

theorem planSendRaw_ok {bits : Text} {rs : Level} {hi lo : Nat} (c : Config)
    (h : decodeRawFrame bits = .ok (rs, hi, lo)) :
    planSendRaw bits c = .ok (frame c rs (BitVec.ofNat 8 (16 * hi + lo))) := by
  simp [planSendRaw, h]

/-- Settles O12: nine binary characters are RS and two nibbles, and `invalidFrame` is the decoder's only error. -/
theorem sendRawSendsExactlyNineBits : Obligations.SendRawSendsExactlyNineBits := by
  intro s hr hp
  refine ⟨fun rs b => ?_, fun bits hform => ?_⟩
  · have hd := planSendRaw_ok s.cfg (decodeRawFrame_binChars rs (nibbleHigh b) (nibbleLow b))
    rw [nibbles_rebuild] at hd
    exact exec_ready_plans rfl rfl hr hp hd
  · have hd := (decodeRawFrame_errors bits).eq_error fun r hok => hform (decodeRawFrame_ok_form hok)
    exact exec_ready_error rfl rfl hr hp (by simp [requestPlan, planSendRaw, hd])

/-! ### SET_CURSOR -/

theorem planSetCursor_of_address {column row : Int} {addr : Nat} (c : Config)
    (h : cursorAddress column row = .ok addr) :
    planSetCursor column row c = planSendRaw ([0x30] ++ [0x31] ++ bin7 addr) c := by
  simp [planSetCursor, h]

theorem planSetCursor_ok {column row : Int} (c : Config) (h0 : 0 ≤ column) (h40 : column < 40)
    (hrow : row = 0 ∨ row = 1) :
    planSetCursor column row c =
      .ok (frame c false (0x80#8 ||| BitVec.ofInt 8 (if row = 0 then column else 64 + column))) := by
  obtain ⟨addr, hi, lo, haddr, hraw, hbyte⟩ := cursor_raw_frame_rebuilds h0 h40 hrow
  rw [planSetCursor_of_address c haddr, planSendRaw_ok c hraw, hbyte]

theorem cursorAddress_error {column row : Int} (h : ¬ (0 ≤ column ∧ column < 40 ∧ 0 ≤ row ∧ row ≤ 1)) :
    cursorAddress column row = .error .invalidCursor := by
  by_cases hcolumn : 0 ≤ column ∧ column < 40
  · have hrow : ¬ (0 ≤ row ∧ row ≤ 1) := by omega
    rw [cursorAddress, if_neg (not_not_intro hcolumn), if_pos hrow]
  · rw [cursorAddress, if_pos hcolumn]

/-- Settles O13: the raw frame of a position's address is the command byte; elsewhere there is no address. -/
theorem setCursorSendsTheDdramCommand : Obligations.SetCursorSendsTheDdramCommand := by
  intro column row s hr hp
  refine ⟨fun h0 h40 hrow => exec_ready_plans rfl rfl hr hp (planSetCursor_ok s.cfg h0 h40 hrow), fun hout => ?_⟩
  exact exec_ready_error rfl rfl hr hp (by simp [requestPlan, planSetCursor, cursorAddress_error hout])

/-! ### WRITE_CHAR and WRITE_STRING -/

theorem planWriteChar_eq_planSendEnc {code : Nat} (c : Config) (h : code ≤ 0xFF) :
    planWriteChar code c = planSendEnc ([0x31, 0x78] ++ hex2 code) c :=
  if_neg h.not_gt

theorem planWriteChar_ok {code : Nat} (c : Config) (h : code ≤ 0xFF) :
    planWriteChar code c = .ok (frame c true (BitVec.ofNat 8 code)) := by
  have hcode : (BitVec.ofNat 8 code).toNat = code := by rw [BitVec.toNat_ofNat, Nat.mod_eq_of_lt (by omega)]
  have hd := decodeRoutingText_hex2 true (BitVec.ofNat 8 code)
  rw [hcode] at hd
  rw [planWriteChar_eq_planSendEnc c h]
  exact planSendEnc_ok c hd

/-- Settles O14: a code of at most 0xFF is its own byte, sent as the routing text of its two hex digits. -/
theorem writeCharSendsTheCodeAsData : Obligations.WriteCharSendsTheCodeAsData :=
  fun _ s hr hp => ⟨fun h => exec_ready_plans rfl rfl hr hp (planWriteChar_ok s.cfg h),
    fun h => exec_ready_error rfl rfl hr hp (if_pos h)⟩

theorem planWriteString_ok {text : Text} (c : Config) (h : ∀ code ∈ text, code ≤ 0xFF) :
    planWriteString text c = .ok (frames c (text.map fun code => (true, BitVec.ofNat 8 code))) := by
  refine if_neg ?_
  simpa using h

theorem planWriteString_error {text : Text} (c : Config) (h : ∃ code ∈ text, 0xFF < code) :
    planWriteString text c = .error .invalidEncoding := by
  refine if_pos ?_
  simpa using h

/-- Settles O15: every code is checked before a frame is planned. -/
theorem writeStringSendsAllOrNothing : Obligations.WriteStringSendsAllOrNothing := by
  intro text s hr hp
  refine ⟨fun h => ?_, fun h => exec_ready_error rfl rfl hr hp (planWriteString_error s.cfg h)⟩
  have hplan : requestPlan s.cfg (.writeString text) = _ := planWriteString_ok s.cfg h
  rw [exec_ready_plans rfl rfl hr hp hplan, frames, List.flatMap_map]

/-! ### DEFINE_GLYPH and DRAW_GLYPH -/

theorem cgramCommand_ok {slot : Int} (h1 : 1 ≤ slot) (h8 : slot ≤ 8) :
    cgramCommand slot = .ok (BitVec.ofInt 8 ((slot - 1) * 8 + 0x40)) :=
  if_neg (not_not_intro ⟨h1, h8⟩)

theorem cgramCommand_error {slot : Int} (h : ¬ (1 ≤ slot ∧ slot ≤ 8)) : cgramCommand slot = .error .invalidSlot :=
  if_pos h

theorem glyphDrawByte_ok {slot : Int} (h1 : 1 ≤ slot) (h8 : slot ≤ 8) :
    glyphDrawByte slot = .ok (BitVec.ofInt 8 (slot - 1)) :=
  if_neg (not_not_intro ⟨h1, h8⟩)

theorem glyphDrawByte_error {slot : Int} (h : ¬ (1 ≤ slot ∧ slot ≤ 8)) : glyphDrawByte slot = .error .invalidSlot :=
  if_pos h

theorem patternSum_errors (w : Nat) (p : Text) : ErrorsMeet (· = .invalidEncoding) (patternSum w p) := by
  induction p generalizing w with
  | nil => exact errorsMeet_ok _
  | cons c cs ih => exact (binDigit_errors _ _).bind fun _ => (ih _).bind fun _ => errorsMeet_ok _

theorem binaryPatternToByte_errors (short : Bool) (p : Text) :
    ErrorsMeet (· = .invalidEncoding) (binaryPatternToByte short p) := by
  unfold binaryPatternToByte
  split
  · exact errorsMeet_error rfl
  · exact (patternSum_errors _ _).bind fun _ => errorsMeet_ok _

theorem rowBytes_errors (short : Bool) (rows : List Text) :
    ErrorsMeet (· = .invalidEncoding) (rowBytes short rows) := by
  induction rows with
  | nil => exact errorsMeet_ok _
  | cons row rows ih => exact (binaryPatternToByte_errors _ _).bind fun _ => ih.bind fun _ => errorsMeet_ok _

/-- The row loop succeeds exactly when every row does, with their bytes in order. -/
theorem rowBytes_eq_ok {short : Bool} {rows : List Text} {vs : List Byte} :
    rowBytes short rows = .ok vs ↔ List.Forall₂ (fun row v => binaryPatternToByte short row = .ok v) rows vs := by
  induction rows generalizing vs with
  | nil => cases vs <;> simp [rowBytes]
  | cons row rows ih =>
    cases vs <;> simp [rowBytes, except_bind_eq_ok, ih]

/-- When the row loop succeeds, every row reads. -/
theorem rowBytes_ok_forall {short : Bool} {rows : List Text} {vs : List Byte} (h : rowBytes short rows = .ok vs) :
    ∀ row ∈ rows, ∃ v, binaryPatternToByte short row = .ok v :=
  ((List.forall₂_and_left (p := fun row => ∃ v, binaryPatternToByte short row = .ok v) rows vs).mp
    ((rowBytes_eq_ok.mp h).imp fun _ v hv => ⟨⟨v, hv⟩, hv⟩)).1

theorem planDefineGlyph_ok {slot : Int} {rows : List Text} {vs : List Byte} {c : Config} (h1 : 1 ≤ slot)
    (h8 : slot ≤ 8) (hlen : rows.length = 8)
    (hvs : List.Forall₂ (fun row v => binaryPatternToByte c.acceptShortRows row = .ok v) rows vs) :
    planDefineGlyph slot rows c =
      .ok (frame c false (BitVec.ofInt 8 ((slot - 1) * 8 + 0x40)) ++ vs.flatMap fun v => frame c true v) := by
  simp [planDefineGlyph, cgramCommand_ok h1 h8, hlen, rowBytes_eq_ok.mpr hvs, frames, List.flatMap_map]

theorem planDefineGlyph_bad_rows {slot : Int} {rows : List Text} {c : Config} (h1 : 1 ≤ slot) (h8 : slot ≤ 8)
    (h : rows.length ≠ 8 ∨ ∃ row ∈ rows, ∃ k, binaryPatternToByte c.acceptShortRows row = .error k) :
    planDefineGlyph slot rows c = .error .invalidEncoding := by
  by_cases hlen : rows.length = 8
  · obtain ⟨row, hrow, k, hk⟩ := h.resolve_left (not_not_intro hlen)
    have hrows : rowBytes c.acceptShortRows rows = .error .invalidEncoding := by
      refine (rowBytes_errors _ rows).eq_error fun vs hvs => ?_
      obtain ⟨v, hv⟩ := rowBytes_ok_forall hvs row hrow
      simp [hk] at hv
    simp [planDefineGlyph, cgramCommand_ok h1 h8, hlen, hrows]
  · simp [planDefineGlyph, cgramCommand_ok h1 h8, hlen]

/-- Settles O16: the slot is validated first, then the row count, then the rows. -/
theorem defineGlyphSendsCommandThenEightRows : Obligations.DefineGlyphSendsCommandThenEightRows := by
  intro slot rows s hr hp
  refine ⟨fun vs h1 h8 hlen hvs => ?_, fun hslot => ?_, fun h1 h8 hbad => ?_⟩
  · exact exec_ready_plans rfl rfl hr hp (planDefineGlyph_ok h1 h8 hlen hvs)
  · exact exec_ready_error rfl rfl hr hp (by simp [requestPlan, planDefineGlyph, cgramCommand_error hslot])
  · exact exec_ready_error rfl rfl hr hp (planDefineGlyph_bad_rows h1 h8 hbad)

theorem planDrawGlyph_ok {slot : Int} (c : Config) (h1 : 1 ≤ slot) (h8 : slot ≤ 8) :
    planDrawGlyph slot c = .ok (frame c true (BitVec.ofInt 8 (slot - 1))) := by
  simp [planDrawGlyph, glyphDrawByte_ok h1 h8]

/-- Settles O17: the slot is the only operand. -/
theorem drawGlyphSendsSlotMinusOne : Obligations.DrawGlyphSendsSlotMinusOne := by
  intro slot s hr hp
  refine ⟨fun h1 h8 => exec_ready_plans rfl rfl hr hp (planDrawGlyph_ok s.cfg h1 h8), fun hslot => ?_⟩
  exact exec_ready_error rfl rfl hr hp (by simp [requestPlan, planDrawGlyph, glyphDrawByte_error hslot])

end Sys2Proof.Machine
end

section
/-! PROOFS. The expansions of spec/30_encoding.md R79. -/

namespace Sys2Proof.Machine

/-! ### Requests of one frame -/

theorem exec_sendEnc_eq_sendCmd {c2 c3 : Nat} {b : Byte} (s : State) (h : decodeHexPair [c2, c3] = .ok b) :
    exec (.sendEnc [0x30, 0x78, c2, c3]) s = exec (.sendCmd b) s :=
  exec_eq_of_requestPlan_eq rfl rfl rfl rfl (planSendEnc_ok s.cfg (decodeRoutingText_ok false h))

theorem exec_sendEnc_eq_sendData {c2 c3 : Nat} {b : Byte} (s : State) (h : decodeHexPair [c2, c3] = .ok b) :
    exec (.sendEnc [0x31, 0x78, c2, c3]) s = exec (.sendData b) s :=
  exec_eq_of_requestPlan_eq rfl rfl rfl rfl (planSendEnc_ok s.cfg (decodeRoutingText_ok true h))

theorem exec_sendRaw_eq_sendByte {bits : Text} {rs : Level} {hi lo : Nat} (s : State)
    (h : decodeRawFrame bits = .ok (rs, hi, lo)) :
    exec (.sendRaw bits) s =
      exec (if rs then .sendData (BitVec.ofNat 8 (16 * hi + lo)) else .sendCmd (BitVec.ofNat 8 (16 * hi + lo))) s := by
  cases rs with
  | true => exact exec_eq_of_requestPlan_eq rfl rfl rfl rfl (planSendRaw_ok s.cfg h)
  | false => exact exec_eq_of_requestPlan_eq rfl rfl rfl rfl (planSendRaw_ok s.cfg h)

/-! ### Requests of several frames -/

/-- Requests that each plan their own frames, one for each element of a list. -/
theorem forall₂_exec_plans {α : Type} {xs : List α} {request : α → Instr} {ops : α → List MicroOp} {s : State}
    (h : ∀ x ∈ xs, exec (request x) s = .next { s with run := .busy, seq := ops x }) :
    List.Forall₂ (fun x plan => exec (request x) s = .next { s with run := .busy, seq := plan }) xs (xs.map ops) := by
  rw [List.forall₂_map_right_iff, List.forall₂_same]
  exact h

theorem writeString_expands (s : State) (text : Text) (hr : s.run = .idle) (hp : s.phase = .ready)
    (h : ∀ code ∈ text, code ≤ 0xFF) :
    ∃ plans : List (List MicroOp),
      List.Forall₂ (fun code ops => exec (.writeChar code) s = .next { s with run := .busy, seq := ops }) text plans ∧
      exec (.writeString text) s = .next { s with run := .busy, seq := plans.flatten } :=
  ⟨_, forall₂_exec_plans fun code hcode => (writeCharSendsTheCodeAsData code s hr hp).1 (h code hcode),
    (writeStringSendsAllOrNothing text s hr hp).1 h⟩

theorem defineGlyph_expands (s : State) (slot : Int) (rows : List Text) (vs : List Byte) (hr : s.run = .idle)
    (hp : s.phase = .ready) (h1 : 1 ≤ slot) (h8 : slot ≤ 8) (hlen : rows.length = 8)
    (hvs : List.Forall₂ (fun row v => binaryPatternToByte s.cfg.acceptShortRows row = .ok v) rows vs) :
    ∃ (cmdOps : List MicroOp) (plans : List (List MicroOp)),
      exec (.sendCmd (BitVec.ofInt 8 ((slot - 1) * 8 + 0x40))) s = .next { s with run := .busy, seq := cmdOps } ∧
      List.Forall₂ (fun v ops => exec (.sendData v) s = .next { s with run := .busy, seq := ops }) vs plans ∧
      exec (.defineGlyph slot rows) s = .next { s with run := .busy, seq := cmdOps ++ plans.flatten } :=
  ⟨_, _, (byteRequestsPlanOneFrame _ s hr hp).1,
    forall₂_exec_plans fun v _ => (byteRequestsPlanOneFrame v s hr hp).2.1,
    (defineGlyphSendsCommandThenEightRows slot rows s hr hp).1 vs h1 h8 hlen hvs⟩

/-- A routing text for the command register plans its byte's frame, on any IDLE block made READY. -/
theorem exec_sendEnc_ready_plans {s : State} {c2 c3 : Nat} {b : Byte} (hr : s.run = .idle)
    (h : decodeHexPair [c2, c3] = .ok b) :
    exec (.sendEnc [0x30, 0x78, c2, c3]) { s with phase := .ready } =
      .next { s with phase := .ready, run := .busy, seq := frame s.cfg false b } :=
  exec_ready_plans (s := { s with phase := .ready }) rfl rfl hr rfl
    (planSendEnc_ok s.cfg (decodeRoutingText_ok false h))

theorem init_expands (s : State) (board : BoardKind) (socket : SocketId) (bl : Level) (p : Pins) (hr : s.run = .idle)
    (hp : s.phase = .uninit) (h : resolvePins s.cfg board socket = .ok p) :
    ∃ plans : List (List MicroOp),
      List.Forall₂
        (fun text ops => exec (.sendEnc text) { s with phase := .ready } =
          .next { s with phase := .ready, run := .busy, seq := ops })
        [[0x30, 0x78, 0x33, 0x33], [0x30, 0x78, 0x33, 0x32], [0x30, 0x78, 0x30, 0x43], [0x30, 0x78, 0x30, 0x31]]
        plans ∧
      exec (.init board socket bl) s = .next { s with run := .busy, seq := .bind bl p :: plans.flatten } := by
  refine ⟨initBytes.map fun (f : Level × Byte) => frame s.cfg f.1 f.2, ?_, exec_init_plans bl hr hp h⟩
  exact .cons (exec_sendEnc_ready_plans hr rfl) (.cons (exec_sendEnc_ready_plans hr rfl)
    (.cons (exec_sendEnc_ready_plans hr rfl) (.cons (exec_sendEnc_ready_plans hr rfl) .nil)))

/-- Settles O18: one row of R79's table after the other. -/
theorem requestsEqualTheirExpansions : Obligations.RequestsEqualTheirExpansions := by
  refine ⟨fun _ => rfl, fun s code h => ?_, fun s column row addr h => ?_, fun s slot h1 h8 => ?_,
    fun s c2 c3 b h => ⟨exec_sendEnc_eq_sendCmd s h, exec_sendEnc_eq_sendData s h⟩,
    fun s bits rs hi lo h => exec_sendRaw_eq_sendByte s h, writeString_expands, defineGlyph_expands, init_expands⟩
  · exact exec_eq_of_requestPlan_eq rfl rfl rfl rfl (planWriteChar_eq_planSendEnc s.cfg h)
  · exact exec_eq_of_requestPlan_eq rfl rfl rfl rfl (planSetCursor_of_address s.cfg h)
  · exact exec_eq_of_requestPlan_eq rfl rfl rfl rfl (planDrawGlyph_ok s.cfg h1 h8)

end Sys2Proof.Machine
end

section
/-! PROOFS. Whole runs of a request: its micro-operations one by one, then its OK (spec/42_init_and_transfer.md R150). -/

namespace Sys2Proof.Machine

/-! ### The sequencer -/

/-- The state after the micro-operations `ms` at the head of `seq`, with `rest` still to perform. -/
def seqResult (ms rest : List MicroOp) (s : State) : State :=
  { s with
    pin := replayFrom s.pin (seqEvents s.cfg s.source s.draws ms)
    bound := ms.foldl boundAfter s.bound
    seq := rest
    trace := s.trace ++ seqEvents s.cfg s.source s.draws ms
    draws := s.draws + seqDraws ms }

theorem seqResult_nil (s : State) : seqResult [] s.seq s = s := by
  simp [seqResult, seqEvents, seqDraws]

theorem seqResult_cons (m : MicroOp) (ms rest : List MicroOp) (s : State) :
    seqResult (m :: ms) rest s = seqResult ms rest (microResult m (ms ++ rest) s) := by
  simp [seqResult, microResult, seqEvents, seqDraws, replayFrom_append, Nat.add_assoc]

/-- A BUSY block performs the micro-operations at the head of `seq`, one a step. -/
theorem runSteps_seq {ms rest : List MicroOp} {s : State} (hr : s.run = .busy) (hs : s.seq = ms ++ rest) :
    runSteps ms.length s = .next (seqResult ms rest s) := by
  induction ms generalizing s with
  | nil =>
    obtain rfl : s.seq = rest := hs
    rw [seqResult_nil]
    rfl
  | cons m ms ih =>
    rw [List.length_cons, runSteps_busy_head ms.length hr hs, seqResult_cons]
    exact ih hr rfl

theorem runSteps_complete {s : State} (hr : s.run = .busy) :
    runSteps (s.seq.length + 1) s = .next (complete (seqResult s.seq [] s)) := by
  have hseq : runSteps s.seq.length s = .next (seqResult s.seq [] s) := runSteps_seq hr (by simp)
  rw [runSteps_add _ 1 hseq]
  exact runSteps_succ 0 (step_busy_done hr rfl)

/-- Settles O34: after k steps the first k micro-operations are performed, and the step after the last completes. -/
theorem requestInFlightRunsToCompletion : Obligations.RequestInFlightRunsToCompletion := by
  intro s hr
  refine ⟨fun k hk => ⟨seqResult (s.seq.take k) (s.seq.drop k) s, ?_, hr, rfl, rfl⟩,
    complete (seqResult s.seq [] s), runSteps_complete hr, rfl, rfl, rfl, rfl, rfl, rfl, rfl, rfl⟩
  have hrun : runSteps (s.seq.take k).length s = _ := runSteps_seq hr (List.take_append_drop k s.seq).symm
  rwa [List.length_take_of_le hk] at hrun

/-! ### A request from the port to its OK -/

/-- The state after a request that planned `ops`, when `port` is left at the port. -/
def afterRequest (ops : List MicroOp) (port : List Nat) (s : State) : State :=
  complete (seqResult ops [] { s with port := port, run := .busy, seq := ops })

theorem runSteps_request {i : Instr} {ops : List MicroOp} {rest : List Nat} {s : State} (hr : s.run = .idle)
    (hq : i.isRequest = true) (hport : s.port = encode i ++ rest)
    (h : exec i { s with port := rest } = .next { s with port := rest, run := .busy, seq := ops }) :
    runSteps (ops.length + 2) s = .next (afterRequest ops rest s) := by
  have hstep := (step_idle_request hr (fetch_request_iff.mpr ⟨hq, hport⟩)).trans h
  rw [runSteps_succ (ops.length + 1) hstep]
  exact runSteps_complete (s := { s with port := rest, run := .busy, seq := ops }) rfl

/-- The events of the plan latch nibbles behind the whole frames of an IDLE block. -/
theorem afterRequest_frames {s : State} (hinv : s.Inv) (haligned : s.FramesAligned) (hr : s.run = .idle)
    (ops : List MicroOp) (port : List Nat) :
    (afterRequest ops port s).frames =
      s.frames ++ frameView (latchedFrom s.pin (seqEvents s.cfg s.source s.draws ops)) := by
  have hwhole := haligned.latched_whole (hinv.seq_only_while_busy (by simp [hr]))
  calc (afterRequest ops port s).frames
      = frameView (latched (s.trace ++ seqEvents s.cfg s.source s.draws ops)) := rfl
    _ = _ := by rw [latched_append, frameView_append hwhole, ← hinv.pins_from_trace]; rfl

theorem foldl_boundAfter_of_no_bind {ms : List MicroOp} (h : ∀ m ∈ ms, m.isBind = false) (old : Option Pins) :
    ms.foldl boundAfter old = old := by
  induction ms generalizing old with
  | nil => rfl
  | cons m ms ih =>
    obtain ⟨hm, hms⟩ := List.forall_mem_cons.mp h
    rw [List.foldl_cons, boundAfter_of_no_bind hm, ih hms]

theorem afterRequest_frames_bound (c : Config) (fs : List (Level × Byte)) (port : List Nat) (s : State) :
    (afterRequest (frames c fs) port s).bound = s.bound :=
  foldl_boundAfter_of_no_bind (frames_no_bind c fs) s.bound

/-- Settles O36: the plan's nibbles are the frames', whatever the pins were. -/
theorem plannedFramesAppearOnThePins : Obligations.PlannedFramesAppearOnThePins := by
  intro i fs rest s hinv haligned hr hport hq h
  refine ⟨afterRequest (frames s.cfg fs) rest s, runSteps_request hr hq hport h, rfl, ?_, rfl, rfl,
    afterRequest_frames_bound .., rfl⟩
  rw [afterRequest_frames hinv haligned hr, framesLatchTheirBytes]

/-! ### INIT -/

/-- BIND and the four init frames leave the levels of R242, whatever the pins were. -/
theorem replayFrom_init (c : Config) (source n : Nat) (bl : Level) (p : Pins) (pin : PinLevels) :
    replayFrom pin (seqEvents c source n (.bind bl p :: frames c initBytes)) =
      { rs := .level false, d7 := .level false, d6 := .level false, d5 := .level false,
        d4 := .level true, e := .level false, bl := .level bl } := by
  simp only [seqEvents, initBytes, frames_cons, frames_nil, seqEvents_append, replayFrom_append, replayFrom_frame]
  rfl

theorem latchedFrom_init (c : Config) (source n : Nat) (bl : Level) (p : Pins) (pin : PinLevels) :
    latchedFrom pin (seqEvents c source n (.bind bl p :: frames c initBytes)) = initBytes.flatMap frameNibbles :=
  latchedFrom_frames c source n initBytes _

theorem foldl_boundAfter_init (c : Config) (bl : Level) (p : Pins) (old : Option Pins) :
    (MicroOp.bind bl p :: frames c initBytes).foldl boundAfter old = some p :=
  foldl_boundAfter_of_no_bind (frames_no_bind c initBytes) (some p)

/-- Settles O35: INIT's plan is BIND, which latches nothing, and the four frames of `initBytes`. -/
theorem initEndsReadyWithFourFramesOnThePins : Obligations.InitEndsReadyWithFourFramesOnThePins := by
  intro board socket bl p rest s hinv haligned hr hp hport hres
  have hexec := exec_init_plans (s := { s with port := rest }) bl hr hp hres
  refine ⟨_, _, runSteps_request hr rfl hport hexec, rfl, rfl, foldl_boundAfter_init .., replayFrom_init .., ?_, rfl, rfl⟩
  rw [afterRequest_frames hinv haligned hr, latchedFrom_init, frameView_frameNibbles]
  rfl

/-! ### Requests in READY -/

/-- A request in READY whose plan is frames runs to IDLE with those frames on the pins and its OK. -/
theorem ready_request_runs {i : Instr} {fs : List (Level × Byte)} {rest : List Nat} {s : State} (hinv : s.Inv)
    (haligned : s.FramesAligned) (hr : s.run = .idle) (hp : s.phase = .ready) (hq : i.isRequest = true)
    (hi : i.isInit = false) (hport : s.port = encode i ++ rest) (hplan : requestPlan s.cfg i = .ok (frames s.cfg fs)) :
    ∃ n t, runSteps n s = .next t ∧ t.run = .idle ∧ t.resp = s.resp ++ [.ok] ∧ t.frames = s.frames ++ fs := by
  have hexec := exec_ready_plans (s := { s with port := rest }) hq hi hr hp hplan
  obtain ⟨t, hrun, hidle, hframes, hresp, -⟩ :=
    plannedFramesAppearOnThePins i fs rest s hinv haligned hr hport hq hexec
  exact ⟨_, t, hrun, hidle, hresp, hframes⟩

/-- Settles O37: the plan is the one command frame. -/
theorem setCursorCommandAppearsOnThePins : Obligations.SetCursorCommandAppearsOnThePins := by
  intro column row rest s hinv haligned hr hp hport h0 h40 hrow
  refine ready_request_runs hinv haligned hr hp rfl rfl hport ?_
  rw [frames_singleton]
  exact planSetCursor_ok s.cfg h0 h40 hrow

/-- Settles O38: the plan is one data frame a character. -/
theorem writeStringAppearsOnThePins : Obligations.WriteStringAppearsOnThePins :=
  fun _ _ s hinv haligned hr hp hport h =>
    ready_request_runs hinv haligned hr hp rfl rfl hport (planWriteString_ok s.cfg h)

/-- The pins after a CLEAR are the low nibble of 0x01 with RS and E low, and BACKLIGHT as it was. -/
theorem afterClear_pin (port : List Nat) (s : State) :
    (afterRequest (frame s.cfg false 0x01) port s).pin =
      { s.pin with
        rs := .level false, d7 := .level false, d6 := .level false, d5 := .level false
        d4 := .level true, e := .level false } :=
  replayFrom_frame ..

/-- The invariants hold along every run. -/
theorem runSteps_keeps_invariants {n : Nat} {s t : State} (hinv : s.Inv) (haligned : s.FramesAligned)
    (h : runSteps n s = .next t) : t.Inv ∧ t.FramesAligned :=
  runSteps_keeps (P := fun s => s.Inv ∧ s.FramesAligned)
    (fun s t hs hstep =>
      ⟨everyStepKeepsTheInvariant s t hs.1 hstep, everyStepKeepsFramesWhole s t hs.1 hs.2 hstep⟩)
    ⟨hinv, haligned⟩ h

/-- One CLEAR of an IDLE READY block. -/
theorem clear_runs {rest : List Nat} {s : State} (hinv : s.Inv) (haligned : s.FramesAligned) (hr : s.run = .idle)
    (hp : s.phase = .ready) (hport : s.port = encode .clear ++ rest) :
    runSteps ((frame s.cfg false 0x01).length + 2) s = .next (afterRequest (frame s.cfg false 0x01) rest s) ∧
      (afterRequest (frame s.cfg false 0x01) rest s).frames = s.frames ++ [(false, 0x01)] ∧
      (afterRequest (frame s.cfg false 0x01) rest s).bound = s.bound := by
  have hexec := exec_ready_plans (i := .clear) (s := { s with port := rest }) rfl rfl hr hp rfl
  refine ⟨runSteps_request hr rfl hport hexec, ?_, ?_⟩
  · rw [afterRequest_frames hinv haligned hr, ← frames_singleton, framesLatchTheirBytes]
  · rw [← frames_singleton, afterRequest_frames_bound]

/-- Settles O39: each CLEAR is one frame that leaves the same pins. -/
theorem twoClearsAreIdempotent : Obligations.TwoClearsAreIdempotent := by
  intro rest s hinv haligned hr hp hport
  rw [List.append_assoc] at hport
  obtain ⟨hrun, hframes, hbound⟩ := clear_runs hinv haligned hr hp hport
  obtain ⟨hinv', haligned'⟩ := runSteps_keeps_invariants hinv haligned hrun
  obtain ⟨hrun', hframes', hbound'⟩ := clear_runs hinv' haligned' rfl rfl (rest := rest) rfl
  refine ⟨_, _, _, _, hrun, hrun', rfl, rfl, hframes, ?_, rfl, hbound', ?_⟩
  · rw [hframes', hframes, List.append_assoc]
    rfl
  · rw [afterClear_pin, afterClear_pin]

end Sys2Proof.Machine
end

section
/-! PROOFS. The dwell draws change nothing but the durations of HOLD events (spec/40_signal_bus.md R104). -/

namespace Sys2Proof.Machine

/-! ### Updates of a block whose draws are forgotten -/

theorem complete_timeless (s : State) : (complete s).timeless = complete s.timeless := rfl

theorem raiseError_timeless (k : ErrorKind) (s : State) : (raiseError k s).timeless = raiseError k s.timeless := rfl

theorem recordFault_timeless (f : Fault) (s : State) : (recordFault f s).timeless = recordFault f s.timeless := rfl

theorem loadPlan_timeless (ops : List MicroOp) (s : State) : (loadPlan ops s).timeless = loadPlan ops s.timeless := rfl

/-- Whatever was drawn, a micro-operation's events are the same but for the durations of its HOLD. -/
theorem microEvents_untimed (c : Config) (source n : Nat) (m : MicroOp) :
    (microEvents c source n m).map PinEvent.untimed = (microEvents c 0 0 m).map PinEvent.untimed := by
  cases m <;> rfl

/-- The pins do not depend on how long a HOLD lasts. -/
theorem replayFrom_untimed (p : PinLevels) (evs : List PinEvent) :
    replayFrom p (evs.map PinEvent.untimed) = replayFrom p evs := by
  induction evs generalizing p with
  | nil => rfl
  | cons ev evs ih => cases ev <;> exact ih _

theorem replayFrom_microEvents (p : PinLevels) (c : Config) (source n : Nat) (m : MicroOp) :
    replayFrom p (microEvents c source n m) = replayFrom p (microEvents c 0 0 m) := by
  rw [← replayFrom_untimed, microEvents_untimed, replayFrom_untimed]

theorem microResult_timeless (m : MicroOp) (rest : List MicroOp) (s : State) :
    (microResult m rest s).timeless =
      { s.timeless with
        pin := replayFrom s.timeless.pin (microEvents s.timeless.cfg 0 0 m)
        bound := boundAfter s.timeless.bound m
        seq := rest
        trace := s.timeless.trace ++ (microEvents s.timeless.cfg 0 0 m).map PinEvent.untimed } := by
  simp only [State.timeless, microResult, List.map_append, microEvents_untimed s.cfg s.source s.draws,
    replayFrom_microEvents s.pin s.cfg s.source s.draws]

/-! ### Two blocks that differ in their draws -/

section Timeless
variable {s s' t : State} (hs : s'.timeless = s.timeless)
include hs

theorem acceptRequest_same_timeless {w : Phase} {f : Fault} {planned : Except ErrorKind (List MicroOp)}
    (h : acceptRequest w f planned s = .next t) :
    ∃ t', acceptRequest w f planned s' = .next t' ∧ t'.timeless = t.timeless := by
  have hrun : s'.run = s.run := (congrArg State.run hs :)
  have hphase : s'.phase = s.phase := (congrArg State.phase hs :)
  rcases acceptRequest_next h with ⟨hr, hp, rfl⟩ | ⟨hr, hp, k, rfl, rfl⟩ | ⟨hr, hp, ops, rfl, rfl⟩ | ⟨hr, rfl⟩
  · exact ⟨_, acceptRequest_wrong_phase (hrun.trans hr) (hphase ▸ hp), by rw [recordFault_timeless, hs]; rfl⟩
  · exact ⟨_, acceptRequest_error (hrun.trans hr) (hphase.trans hp), by rw [raiseError_timeless, hs]; rfl⟩
  · exact ⟨_, acceptRequest_ok (hrun.trans hr) (hphase.trans hp), by rw [loadPlan_timeless, hs]; rfl⟩
  · exact ⟨s', acceptRequest_busy_or_halted (hrun ▸ hr) w f planned, hs⟩

theorem exec_request_same_timeless {i : Instr} (hq : i.isRequest = true) (h : exec i s = .next t) :
    ∃ t', exec i s' = .next t' ∧ t'.timeless = t.timeless := by
  have hcfg : s'.cfg = s.cfg := (congrArg State.cfg hs :)
  cases hi : i.isInit with
  | true =>
    rw [exec_init_eq i _ hi] at h ⊢
    rw [hcfg]
    exact acceptRequest_same_timeless hs h
  | false =>
    rw [exec_ready_eq i _ hq hi] at h ⊢
    rw [hcfg]
    exact acceptRequest_same_timeless hs h

end Timeless

/-- Settles O48: each kind of step reads only what is left when the draws are forgotten. -/
theorem dwellsChangeNothingButHoldDurations : Obligations.DwellsChangeNothingButHoldDurations := by
  intro s s' t hs h
  have hrun : s'.run = s.run := (congrArg State.run hs :)
  have hseq : s'.seq = s.seq := (congrArg State.seq hs :)
  have hport : s'.port = s.port := (congrArg State.port hs :)
  have hfetch : fetch s' = fetch s := by simp only [fetch, hport]
  rcases step_next h with ⟨⟨k, hr⟩, rfl⟩ | ⟨hr, hnil, rfl⟩ | ⟨m, rest, hr, hcons, rfl⟩ | ⟨hr, hf, rfl⟩ |
    ⟨i, rest, hr, hf, he⟩ | ⟨hr, hf, rfl⟩
  · exact ⟨s', waitingAndHaltedBlocksDoNotChange s' (.inr ⟨k, hrun.trans hr⟩), hs⟩
  · exact ⟨_, step_busy_done (hrun.trans hr) (hseq.trans hnil), by rw [complete_timeless, hs]; rfl⟩
  · exact ⟨_, step_busy_head (hrun.trans hr) (hseq.trans hcons), by rw [microResult_timeless, hs, microResult_timeless]⟩
  · exact ⟨s', step_idle_nothing (hrun.trans hr) (hfetch.trans hf), hs⟩
  · rw [step_idle_request (hrun.trans hr) (hfetch.trans hf)]
    have hs' : State.timeless { s' with port := rest } = State.timeless { s with port := rest } :=
      congrArg (fun u : State => { u with port := rest }) hs
    exact exec_request_same_timeless hs' (fetch_isRequest hf) he
  · exact ⟨_, step_idle_malformed (hrun.trans hr) (hfetch.trans hf), by rw [recordFault_timeless, hs]; rfl⟩

end Sys2Proof.Machine
end

section
/-! PROOFS. Time (spec/00_scope.md R9, spec/40_signal_bus.md R105, spec/70_reset_and_hazards.md R246, R253). -/

namespace Sys2Proof.Machine

/-! ### Durations -/

theorem frame_duration_ge (c : Config) (source n : Nat) (rs : Level) (b : Byte) :
    2000 ≤ ((seqEvents c source n (frame c rs b)).map PinEvent.duration).sum := by
  have h1 := dwell_ge source n
  have h2 := dwell_ge source (n + 1)
  simp only [seqEvents_frame, List.map_append, List.sum_append, List.map_cons, List.sum_cons, PinEvent.duration]
  omega

theorem frames_duration_ge (c : Config) (source n : Nat) (fs : List (Level × Byte)) :
    2000 * fs.length ≤ ((seqEvents c source n (frames c fs)).map PinEvent.duration).sum := by
  induction fs generalizing n with
  | nil => exact Nat.zero_le _
  | cons f fs ih =>
    have hframe := frame_duration_ge c source n f.1 f.2
    have hrest := ih (n + seqDraws (frame c f.1 f.2))
    rw [frames_cons, seqEvents_append, List.map_append, List.sum_append, List.length_cons]
    omega

/-- Settles O49: a timeline lasts at least as long as its events, and each frame holds two dwells. -/
theorem framesTakeAtLeastTwoMillisecondsEach : Obligations.FramesTakeAtLeastTwoMillisecondsEach := by
  intro c source n k clk
  refine ⟨fun fs => (frames_duration_ge c source n fs).trans (span_ge_durations ..), fun bl p => ?_⟩
  refine le_trans ?_ (span_ge_durations ..)
  have hframes := frames_duration_ge c source n initBytes
  have hlen : initBytes.length = 4 := rfl
  simpa [hlen, seqEvents, microEvents, microDraws, PinEvent.duration] using hframes

/-! ### The minima between two events -/

/-- What the times of an earlier and a later event keep (R9, R105). -/
structure KeepsMinima (c : Config) (x y : Nat × PinEvent) : Prop where
  ended : x.1 + x.2.duration ≤ y.1
  hold : x.2 = .eFall → ∀ rs d7 d6 d5 d4, y.2 = .levels rs d7 d6 d5 d4 → x.1 + c.tHoldMin ≤ y.1
  setup : ∀ rs d7 d6 d5 d4, x.2 = .levels rs d7 d6 d5 d4 → y.2 = .eRise → x.1 + c.tSetupMin ≤ y.1
  low : x.2 = .eFall → y.2 = .eRise → x.1 + c.tELowMin ≤ y.1

/-- What holds of the clock along a timeline bounds the times of its events. -/
theorem timeline_forall {c : Config} {P : Clock → Prop} {Q : Nat × PinEvent → Prop}
    (hafter : ∀ clk t ev, P clk → clk.now ≤ t → P (clk.after t ev))
    (hstart : ∀ clk t ev, P clk → earliest c clk ev ≤ t → Q (t, ev))
    {source k : Nat} {clk : Clock} {evs : List PinEvent} (h : P clk) :
    ∀ x ∈ timeline c source k clk evs, Q x := by
  induction evs generalizing k clk with
  | nil => simp
  | cons ev evs ih =>
    obtain ⟨hnow, hearliest⟩ := eventStart_ge c source k clk ev
    rw [timeline_cons, List.forall_mem_cons]
    exact ⟨hstart clk _ ev h hearliest, ih (hafter clk _ ev h hnow)⟩

/-- The last E_FALL was at `t` or later. -/
def Clock.FellSince (t : Nat) (clk : Clock) : Prop := t ≤ clk.now ∧ ∃ f, clk.fall = some f ∧ t ≤ f

/-- The last LEVELS was at `t` or later. -/
def Clock.SetSince (t : Nat) (clk : Clock) : Prop := t ≤ clk.now ∧ ∃ l, clk.levels = some l ∧ t ≤ l

theorem after_fellSince {t u : Nat} {clk : Clock} {ev : PinEvent} (h : clk.FellSince t) (hu : clk.now ≤ u) :
    (clk.after u ev).FellSince t := by
  obtain ⟨hnow, f, hf, hle⟩ := h
  refine ⟨by rw [after_now]; omega, ?_⟩
  cases ev with
  | eFall => exact ⟨u, rfl, by omega⟩
  | bind => exact ⟨f, hf, hle⟩
  | levels => exact ⟨f, hf, hle⟩
  | eRise => exact ⟨f, hf, hle⟩
  | hold => exact ⟨f, hf, hle⟩

theorem after_setSince {t u : Nat} {clk : Clock} {ev : PinEvent} (h : clk.SetSince t) (hu : clk.now ≤ u) :
    (clk.after u ev).SetSince t := by
  obtain ⟨hnow, l, hl, hle⟩ := h
  refine ⟨by rw [after_now]; omega, ?_⟩
  cases ev with
  | levels => exact ⟨u, rfl, by omega⟩
  | bind => exact ⟨l, hl, hle⟩
  | eRise => exact ⟨l, hl, hle⟩
  | hold => exact ⟨l, hl, hle⟩
  | eFall => exact ⟨l, hl, hle⟩

theorem fellSince_earliest_levels {c : Config} {t : Nat} {clk : Clock} (h : clk.FellSince t) (rs d7 d6 d5 d4 : Level) :
    t + c.tHoldMin ≤ earliest c clk (.levels rs d7 d6 d5 d4) := by
  obtain ⟨-, f, hf, hle⟩ := h
  simp only [earliest, hf, notBefore]
  omega

theorem fellSince_earliest_eRise {c : Config} {t : Nat} {clk : Clock} (h : clk.FellSince t) :
    t + c.tELowMin ≤ earliest c clk .eRise := by
  obtain ⟨-, f, hf, hle⟩ := h
  simp only [earliest, hf, notBefore]
  omega

theorem setSince_earliest_eRise {c : Config} {t : Nat} {clk : Clock} (h : clk.SetSince t) :
    t + c.tSetupMin ≤ earliest c clk .eRise := by
  obtain ⟨-, l, hl, hle⟩ := h
  simp only [earliest, hl, notBefore]
  omega

/-- Every event of a timeline that goes on after an event at `t` keeps the minima from it. -/
theorem timeline_after_keepsMinima (c : Config) (source k : Nat) (clk : Clock) (t : Nat) (ev : PinEvent)
    (evs : List PinEvent) : ∀ y ∈ timeline c source k (clk.after t ev) evs, KeepsMinima c (t, ev) y := by
  intro y hy
  have hended := timeline_starts_after hy
  rw [after_now] at hended
  refine ⟨hended, ?_, ?_, ?_⟩
  · rintro rfl
    refine timeline_forall (P := Clock.FellSince t)
      (Q := fun y => ∀ rs d7 d6 d5 d4, y.2 = .levels rs d7 d6 d5 d4 → t + c.tHoldMin ≤ y.1)
      (fun _ _ _ => after_fellSince) ?_ ⟨le_rfl, t, rfl, le_rfl⟩ y hy
    rintro clk' u ev' h hu rs d7 d6 d5 d4 rfl
    exact (fellSince_earliest_levels h ..).trans hu
  · rintro rs d7 d6 d5 d4 rfl
    refine timeline_forall (P := Clock.SetSince t) (Q := fun y => y.2 = .eRise → t + c.tSetupMin ≤ y.1)
      (fun _ _ _ => after_setSince) ?_ ⟨le_rfl, t, rfl, le_rfl⟩ y hy
    rintro clk' u ev' h hu rfl
    exact (setSince_earliest_eRise h).trans hu
  · rintro rfl
    refine timeline_forall (P := Clock.FellSince t) (Q := fun y => y.2 = .eRise → t + c.tELowMin ≤ y.1)
      (fun _ _ _ => after_fellSince) ?_ ⟨le_rfl, t, rfl, le_rfl⟩ y hy
    rintro clk' u ev' h hu rfl
    exact (fellSince_earliest_eRise h).trans hu

theorem timeline_pairwise_keepsMinima (c : Config) (source k : Nat) (clk : Clock) (evs : List PinEvent) :
    (timeline c source k clk evs).Pairwise (KeepsMinima c) := by
  induction evs generalizing k clk with
  | nil => exact .nil
  | cons ev evs ih =>
    rw [timeline_cons, List.pairwise_cons]
    exact ⟨timeline_after_keepsMinima c source (k + 1) clk _ ev evs, ih _ _⟩

/-- Settles O50: any two events of a timeline keep the minima, whatever stands between them. -/
theorem eventTimesKeepTheMinima : Obligations.EventTimesKeepTheMinima := by
  intro c source k clk evs pre mid post t u ev ev' h
  have hpair := timeline_pairwise_keepsMinima c source k clk evs
  rw [h, List.pairwise_append] at hpair
  obtain ⟨-, -, hpair⟩ := hpair
  obtain ⟨hended, hhold, hsetup, hlow⟩ := hpair (t, ev) (by simp) (u, ev') (by simp)
  exact ⟨hended, hhold, hsetup, hlow⟩

/-! ### The first E_RISE -/

/-- A run appends to the trace and keeps the configuration and the source of draws. -/
theorem runSteps_extends {n : Nat} {s t : State} (h : runSteps n s = .next t) :
    s.trace <+: t.trace ∧ t.cfg = s.cfg ∧ t.source = s.source := by
  refine runSteps_keeps (P := fun u => s.trace <+: u.trace ∧ u.cfg = s.cfg ∧ u.source = s.source) ?_
    ⟨List.prefix_refl _, rfl, rfl⟩ h
  rintro u v ⟨htrace, hcfg, hsource⟩ hstep
  have hst := stepsTo_of_step hstep
  exact ⟨htrace.trans (stepsTo_trace hst), (stepsTo_cfg hst).trans hcfg, (stepsTo_source hst).trans hsource⟩

theorem firstRise_of_extends {s t : State} {start first : Nat} (htrace : s.trace <+: t.trace) (hcfg : t.cfg = s.cfg)
    (hsource : t.source = s.source) (h : s.firstRise start = some first) : t.firstRise start = some first := by
  obtain ⟨evs, hevs⟩ := htrace
  obtain ⟨x, hx, rfl⟩ := Option.map_eq_some_iff.mp h
  have hfind : (t.timeline start).find? (fun x => decide (x.2 = .eRise)) = some x := by
    simp only [State.timeline, hcfg, hsource, ← hevs, timeline_append, List.find?_append]
    exact Option.or_eq_some_iff.mpr (.inl hx)
  simp [State.firstRise, hfind]

/-- Every E_RISE of the run is at the time of the first or later. -/
theorem firstRise_le_of_mem {s : State} {start u : Nat} (h : (u, PinEvent.eRise) ∈ s.timeline start) :
    ∃ first, s.firstRise start = some first ∧ first ≤ u := by
  have hpair : (s.timeline start).Pairwise (KeepsMinima s.cfg) := timeline_pairwise_keepsMinima ..
  unfold State.firstRise
  generalize s.timeline start = events at h hpair
  induction events with
  | nil => cases h
  | cons x events ih =>
    obtain ⟨hx, hevents⟩ := List.pairwise_cons.mp hpair
    by_cases hrise : x.2 = .eRise
    · refine ⟨x.1, by simp [hrise], ?_⟩
      rcases List.mem_cons.mp h with rfl | hmem
      · exact le_rfl
      · exact (Nat.le_add_right ..).trans (hx _ hmem).ended
    · have hmem : (u, PinEvent.eRise) ∈ events := by
        rcases List.mem_cons.mp h with rfl | hmem
        · exact absurd rfl hrise
        · exact hmem
      simpa [hrise] using ih hmem hevents

/-- Settles O51: later events come after the first E_RISE, both in the trace and in time. -/
theorem powerOnPremiseCoversEveryStrobe : Obligations.PowerOnPremiseCoversEveryStrobe := by
  refine ⟨fun n start first s t hrun h => ?_, fun powerOn start u s hsettled hu => ?_⟩
  · obtain ⟨htrace, hcfg, hsource⟩ := runSteps_extends hrun
    exact firstRise_of_extends htrace hcfg hsource h
  · obtain ⟨first, hfirst, hle⟩ := firstRise_le_of_mem hu
    exact (hsettled first hfirst).trans hle

end Sys2Proof.Machine
end

section
/-! PROOFS. Several blocks (spec/20_memory.md R68, spec/60_exceptions.md R229, spec/70_reset_and_hazards.md R250). -/

namespace Sys2Proof.Machine

/-! ### Lines apart -/

theorem sharesLine_eq_false {p q : Pins} : sharesLine p q = false ↔ p.toList.Disjoint q.toList := by
  simp [sharesLine, List.Disjoint]

/-- No line is bound by both blocks (R250). -/
def State.LinesApart (s t : State) : Prop :=
  ∀ p q, s.bound = some p → t.bound = some q → p.toList.Disjoint q.toList

theorem State.LinesApart.symm {s t : State} (h : s.LinesApart t) : t.LinesApart s :=
  fun p q hp hq => (h q p hq hp).symm

theorem apartFrom_iff {s : State} {others : List State} :
    apartFrom s others = true ↔ ∀ t ∈ others, s.LinesApart t := by
  simp only [apartFrom, List.all_eq_true]
  refine forall₂_congr fun t _ => ?_
  cases hs : s.bound <;> cases ht : t.bound <;> simp [State.LinesApart, hs, ht, sharesLine_eq_false]

theorem linesApart_iff_pairwise {blocks : List State} :
    linesApart blocks = true ↔ blocks.Pairwise State.LinesApart := by
  induction blocks with
  | nil => simp [linesApart]
  | cons s rest ih => rw [linesApart, Bool.and_eq_true, apartFrom_iff, ih, List.pairwise_cons]

/-- Any two blocks at different places, in either order. -/
theorem linesApart_iff {blocks : List State} :
    linesApart blocks = true ↔
      ∀ (i j : Nat) (s t : State), i ≠ j → blocks[i]? = some s → blocks[j]? = some t → s.LinesApart t := by
  rw [linesApart_iff_pairwise, List.pairwise_iff_getElem]
  constructor
  · intro h i j s t hij hi hj
    obtain ⟨hilt, rfl⟩ := List.getElem?_eq_some_iff.mp hi
    obtain ⟨hjlt, rfl⟩ := List.getElem?_eq_some_iff.mp hj
    rcases Nat.lt_or_gt_of_ne hij with hlt | hgt
    · exact h i j hilt hjlt hlt
    · exact (h j i hjlt hilt hgt).symm
  · intro h i j hi hj hlt
    exact h i j _ _ (Nat.ne_of_lt hlt) (List.getElem?_eq_getElem hi) (List.getElem?_eq_getElem hj)

/-- Lines that are apart after one block's step were apart before it, for a step keeps the block's binding. -/
theorem linesApart_of_set {blocks : List State} {j : Nat} {s t : State} (hj : blocks[j]? = some s)
    (hbound : ∀ p, s.bound = some p → t.bound = some p) (h : linesApart (blocks.set j t) = true) :
    linesApart blocks = true := by
  have after {i : Nat} {u : State} (hi : blocks[i]? = some u) :
      ∃ u', (blocks.set j t)[i]? = some u' ∧ ∀ p, u.bound = some p → u'.bound = some p := by
    obtain ⟨hlt, -⟩ := List.getElem?_eq_some_iff.mp hj
    by_cases hij : j = i
    · subst hij
      obtain rfl : s = u := Option.some.inj (hj.symm.trans hi)
      exact ⟨t, List.getElem?_set_self hlt, hbound⟩
    · exact ⟨u, (List.getElem?_set_ne hij).trans hi, fun _ hp => hp⟩
  rw [linesApart_iff] at h ⊢
  intro i i' u v hne hi hi' p q hp hq
  obtain ⟨u', hu', hup⟩ := after hi
  obtain ⟨v', hv', hvq⟩ := after hi'
  exact h i i' u' v' hne hu' hv' p q (hup p hp) (hvq q hq)

/-! ### Steps of a system -/

theorem stepBlock_eq_next {sys a : System} {k : Nat} :
    sys.stepBlock k = .next a ↔
      ∃ s t, sys.blocks[k]? = some s ∧ step { s with source := k } = .next t ∧
        linesApart (sys.blocks.set k t) = true ∧ a = ⟨sys.blocks.set k t⟩ := by
  constructor
  · intro h
    unfold System.stepBlock at h
    split at h
    next => cases h
    next s hs =>
      split at h
      next t ht =>
        split at h
        next hapart => cases h; exact ⟨s, t, hs, ht, hapart, rfl⟩
        next => cases h
      next => cases h
      next => cases h
  · rintro ⟨s, t, hs, ht, hapart, rfl⟩
    simp [System.stepBlock, hs, ht, hapart]

/-- The invariant does not read the source of draws. -/
theorem State.Inv.with_source {s : State} (h : s.Inv) (k : Nat) : State.Inv { s with source := k } :=
  ⟨h.seq_only_while_busy, h.unbound_undriven, h.bound_driven, h.strobe_low, h.ready_bound, h.uninit_unbound,
    h.bind_first, h.bind_once, h.pins_from_trace⟩

/-- Settles O57: the two blocks at places j and k would share the line. -/
theorem sharedLinesAreRefused : Obligations.SharedLinesAreRefused := by
  intro sys j k s t u p q h hjk hs ht hp hu hq hhp hhq
  obtain ⟨hlt, -⟩ := List.getElem?_eq_some_iff.mp hs
  have hapart : linesApart (sys.blocks.set k t) = false := by
    rw [Bool.eq_false_iff]
    intro hapart
    have hj : (sys.blocks.set k t)[j]? = some u := (List.getElem?_set_ne hjk.symm).trans hu
    exact linesApart_iff.mp hapart k j t u hjk.symm (List.getElem?_set_self hlt) hj p q hp hq hhp hhq
  simp [System.stepBlock, hs, ht, hapart]

/-- Settles O56: two blocks' steps write different places of the list, and the binding of the block that has not stepped yet
is part of the one it ends with. -/
theorem blocksAreIndependent : Obligations.BlocksAreIndependent := by
  intro sys a j k hjk hstep
  obtain ⟨sj, tj, hsj, htj, -, rfl⟩ := stepBlock_eq_next.mp hstep
  have hst := stepsTo_of_step htj
  obtain ⟨hlt, -⟩ := List.getElem?_eq_some_iff.mp hsj
  refine ⟨List.getElem?_set_ne hjk, ⟨tj, List.getElem?_set_self hlt, stepsTo_source hst⟩, fun ab hinv hstep' => ?_⟩
  obtain ⟨sk, tk, hsk, htk, hapart, rfl⟩ := stepBlock_eq_next.mp hstep'
  have hsk' : sys.blocks[k]? = some sk := (List.getElem?_set_ne hjk).symm.trans hsk
  have hsj' : (sys.blocks.set k tk)[j]? = some sj := (List.getElem?_set_ne hjk.symm).trans hsj
  have hcomm : (sys.blocks.set j tj).set k tk = (sys.blocks.set k tk).set j tj := List.set_comm tj tk hjk
  simp only [hcomm] at hapart ⊢
  have hinv' := (hinv sj (List.mem_of_getElem? hsj)).with_source j
  have hbound : ∀ p, sj.bound = some p → tj.bound = some p := fun p hp => stepsTo_keeps_binding hinv' hst hp
  exact ⟨⟨sys.blocks.set k tk⟩,
    stepBlock_eq_next.mpr ⟨sk, tk, hsk', htk, linesApart_of_set hsj' hbound hapart, rfl⟩,
    stepBlock_eq_next.mpr ⟨sj, tj, hsj', htj, hapart, rfl⟩⟩

end Sys2Proof.Machine
end
